-- ==== Sys2Proof/Word.lean ====
section
/-! DEFINITION. The word types of the CHIP-8 CORE (spec/00_scope.md rules R9 and R10): all values are unsigned. -/

namespace Sys2Proof

/-- A byte: a general register, a timer, a memory location, the immediate KK (R10). -/
abbrev Byte := BitVec 8

/-- A 16-bit value: an instruction word, the pc, the index register, a stack entry (R10). -/
abbrev Word := BitVec 16

/-- A 4-bit field: the opcode class or the count N (R72). -/
abbrev Nibble := BitVec 4

/-- The number of a general register, V0 to VF: the 4-bit field X or Y of an instruction word (R20, R72). -/
abbrev Reg := BitVec 4

/-- The 12-bit immediate address NNN (R72). -/
abbrev Addr12 := BitVec 12

/-- The register that doubles as the machine's only flag, VF (R7 FLAG_REG, R21). -/
abbrev VF : Reg := 15#4

/-- Register number 0, the register jump-offset adds (R98). -/
abbrev V0 : Reg := 0#4

end Sys2Proof
end

