-- ==== Sys2Proof/Syntax.lean ====
section
/-! DEFINITION. The instruction set: one constructor per row of spec/opcode_table.json, in the table's order
(spec/30_encoding.md rules R75 to R80). A constructor's fields are the operand fields of the row (R72, R73). -/

namespace Sys2Proof

/-- The 34 instructions and the unmatched word. Names are the spec's mnemonics (R82). -/
inductive Instr where
  /-- `00E0` clear-screen (R130). -/
  | clearScreen
  /-- `00EE` return (R91). -/
  | ret
  /-- `1nnn` jump NNN (R92). -/
  | jump (nnn : Addr12)
  /-- `2nnn` call NNN (R93). -/
  | call (nnn : Addr12)
  /-- `3xkk` skip-eq-imm Vx, KK (R94). -/
  | skipEqImm (x : Reg) (kk : Byte)
  /-- `4xkk` skip-ne-imm Vx, KK (R95). -/
  | skipNeImm (x : Reg) (kk : Byte)
  /-- `5xy0` skip-eq-reg Vx, Vy (R96). -/
  | skipEqReg (x y : Reg)
  /-- `6xkk` load-imm Vx, KK (R111). -/
  | loadImm (x : Reg) (kk : Byte)
  /-- `7xkk` add-imm Vx, KK (R112). -/
  | addImm (x : Reg) (kk : Byte)
  /-- `8xy0` load-reg Vx, Vy (R113). -/
  | loadReg (x y : Reg)
  /-- `8xy1` or Vx, Vy (R114). -/
  | orReg (x y : Reg)
  /-- `8xy2` and Vx, Vy (R115). -/
  | andReg (x y : Reg)
  /-- `8xy3` xor Vx, Vy (R116). -/
  | xorReg (x y : Reg)
  /-- `8xy4` add-reg Vx, Vy (R117). -/
  | addReg (x y : Reg)
  /-- `8xy5` sub-reg Vx, Vy (R118). -/
  | subReg (x y : Reg)
  /-- `8xy6` shift-right Vx (R119). `y` is the Y field of the word, which the instruction ignores and which may hold any
  value (R81). -/
  | shiftRight (x y : Reg)
  /-- `8xy7` subn-reg Vx, Vy (R120). -/
  | subnReg (x y : Reg)
  /-- `8xyE` shift-left Vx (R121). `y` is ignored, as for shift-right. -/
  | shiftLeft (x y : Reg)
  /-- `9xy0` skip-ne-reg Vx, Vy (R97). -/
  | skipNeReg (x y : Reg)
  /-- `Annn` load-index NNN (R140). -/
  | loadIndex (nnn : Addr12)
  /-- `Bnnn` jump-offset NNN (R98). -/
  | jumpOffset (nnn : Addr12)
  /-- `Cxkk` random Vx, KK (R122). -/
  | random (x : Reg) (kk : Byte)
  /-- `Dxyn` draw Vx, Vy, N (R131). -/
  | draw (x y : Reg) (n : Nibble)
  /-- `Ex9E` skip-key-pressed Vx (R158). -/
  | skipKeyPressed (x : Reg)
  /-- `ExA1` skip-key-not-pressed Vx (R159). -/
  | skipKeyNotPressed (x : Reg)
  /-- `Fx07` get-delay Vx (R155). -/
  | getDelay (x : Reg)
  /-- `Fx0A` wait-key Vx (R160). -/
  | waitKey (x : Reg)
  /-- `Fx15` set-delay Vx (R156). -/
  | setDelay (x : Reg)
  /-- `Fx18` set-sound Vx (R157). -/
  | setSound (x : Reg)
  /-- `Fx1E` add-index Vx (R141). -/
  | addIndex (x : Reg)
  /-- `Fx29` font-address Vx (R142). -/
  | fontAddress (x : Reg)
  /-- `Fx33` store-bcd Vx (R143). -/
  | storeBcd (x : Reg)
  /-- `Fx55` store-regs: X is the number of the last register stored (R144). -/
  | storeRegs (x : Reg)
  /-- `Fx65` load-regs: X is the number of the last register loaded (R145). -/
  | loadRegs (x : Reg)
  /-- A word that matches no row of rules R75 to R79 (R80, R81); `w` is the word itself, so that no bit of it is lost. -/
  | unmatched (w : Word)
  deriving DecidableEq, Repr

end Sys2Proof
end

