-- ==== Sys2Proof/WellFormed.lean ====
section
/-! DEFINITION. The opcode table as masks and patterns, and the check that an instruction stands for a word of its own row
(spec/30_encoding.md rules R75 to R81, R83; spec/opcode_table.json). -/

namespace Sys2Proof

/-- One row of the opcode table: a word `w` selects it when `w &&& mask = pattern` (R83). -/
structure Row where
  mnemonic : String
  mask     : Word
  pattern  : Word
  deriving DecidableEq, Repr

/-- Does the word select the row? (R74: "a word selects an instruction only if every selector field has exactly the listed
value".) -/
def Row.selects (r : Row) (w : Word) : Bool := w &&& r.mask == r.pattern

/-- The rows that decode on all four fields, class 0 (R76). -/
def rowsClass0 : List Row :=
  [⟨"clear-screen", 0xFFFF, 0x00E0⟩, ⟨"return", 0xFFFF, 0x00EE⟩]

/-- The rows that decode on the class nibble alone (R75). -/
def rowsClassOnly : List Row :=
  [⟨"jump", 0xF000, 0x1000⟩, ⟨"call", 0xF000, 0x2000⟩, ⟨"skip-eq-imm", 0xF000, 0x3000⟩, ⟨"skip-ne-imm", 0xF000, 0x4000⟩,
   ⟨"load-imm", 0xF000, 0x6000⟩, ⟨"add-imm", 0xF000, 0x7000⟩, ⟨"load-index", 0xF000, 0xA000⟩,
   ⟨"jump-offset", 0xF000, 0xB000⟩, ⟨"random", 0xF000, 0xC000⟩, ⟨"draw", 0xF000, 0xD000⟩]

/-- The rows of classes 5, 8 and 9, selected by N (R77, R78). -/
def rowsByN : List Row :=
  [⟨"skip-eq-reg", 0xF00F, 0x5000⟩, ⟨"load-reg", 0xF00F, 0x8000⟩, ⟨"or", 0xF00F, 0x8001⟩, ⟨"and", 0xF00F, 0x8002⟩,
   ⟨"xor", 0xF00F, 0x8003⟩, ⟨"add-reg", 0xF00F, 0x8004⟩, ⟨"sub-reg", 0xF00F, 0x8005⟩, ⟨"shift-right", 0xF00F, 0x8006⟩,
   ⟨"subn-reg", 0xF00F, 0x8007⟩, ⟨"shift-left", 0xF00F, 0x800E⟩, ⟨"skip-ne-reg", 0xF00F, 0x9000⟩]

/-- The rows of classes E and F, selected by KK (R79). -/
def rowsByKK : List Row :=
  [⟨"skip-key-pressed", 0xF0FF, 0xE09E⟩, ⟨"skip-key-not-pressed", 0xF0FF, 0xE0A1⟩, ⟨"get-delay", 0xF0FF, 0xF007⟩,
   ⟨"wait-key", 0xF0FF, 0xF00A⟩, ⟨"set-delay", 0xF0FF, 0xF015⟩, ⟨"set-sound", 0xF0FF, 0xF018⟩,
   ⟨"add-index", 0xF0FF, 0xF01E⟩, ⟨"font-address", 0xF0FF, 0xF029⟩, ⟨"store-bcd", 0xF0FF, 0xF033⟩,
   ⟨"store-regs", 0xF0FF, 0xF055⟩, ⟨"load-regs", 0xF0FF, 0xF065⟩]

/-- The 34 instruction rows of the table (R83). -/
def rows : List Row := rowsClass0 ++ rowsClassOnly ++ rowsByN ++ rowsByKK

/-- Does the word select one of the 34 instructions? -/
def matchesTable (w : Word) : Bool := rows.any fun r => r.selects w

/-- Every instruction with its operand fields is well formed; an `unmatched` word is well formed when it selects no row, so
that no instruction can be spelled as an unmatched word (R80, R81). -/
def Instr.wellFormed : Instr → Bool
  | .unmatched w => !matchesTable w
  | .clearScreen | .ret => true
  | .jump _ | .call _ | .loadIndex _ | .jumpOffset _ => true
  | .skipEqImm _ _ | .skipNeImm _ _ | .loadImm _ _ | .addImm _ _ | .random _ _ => true
  | .skipEqReg _ _ | .skipNeReg _ _ | .loadReg _ _ | .orReg _ _ | .andReg _ _ | .xorReg _ _ => true
  | .addReg _ _ | .subReg _ _ | .shiftRight _ _ | .subnReg _ _ | .shiftLeft _ _ => true
  | .draw _ _ _ => true
  | .skipKeyPressed _ | .skipKeyNotPressed _ | .getDelay _ | .waitKey _ | .setDelay _ | .setSound _ => true
  | .addIndex _ | .fontAddress _ | .storeBcd _ | .storeRegs _ | .loadRegs _ => true

end Sys2Proof
end

