-- ==== Sys2Proof/Decode.lean ====
section
/-! DEFINITION. The decoder and the encoder (spec/30_encoding.md rules R70 to R83): "Pure function, no side effects, total,
defined for all 65536 inputs". -/

namespace Sys2Proof

/-! ### The six fields of a word (R72) -/

/-- The opcode class, `w[15:12]`. -/
def fieldClass (w : Word) : Nibble := w.extractLsb' 12 4
/-- The register number X, `w[11:8]`. -/
def fieldX (w : Word) : Reg := w.extractLsb' 8 4
/-- The register number Y, `w[7:4]`. -/
def fieldY (w : Word) : Reg := w.extractLsb' 4 4
/-- The trailing nibble N, `w[3:0]`. -/
def fieldN (w : Word) : Nibble := w.extractLsb' 0 4
/-- The trailing byte KK, `w[7:0]`. -/
def fieldKK (w : Word) : Byte := w.extractLsb' 0 8
/-- The trailing address NNN, `w[11:0]`. -/
def fieldNNN (w : Word) : Addr12 := w.extractLsb' 0 12

/-- The instruction word of two consecutive bytes, big-endian (R71). -/
def wordOfBytes (hi lo : Byte) : Word := hi ++ lo

/-- The byte of a word that lies at the lower address (R71: `w[15:8]`). -/
def highByte (w : Word) : Byte := w.extractLsb' 8 8

/-- The byte of a word that lies at the higher address (R71: `w[7:0]`). -/
def lowByte (w : Word) : Byte := w.extractLsb' 0 8

/-! ### The decoder (R74) -/

/-- Class 0, selected by the whole of NNN: exactly 0x00E0 and 0x00EE (R76, decision D13). -/
def decodeClass0 (w : Word) : Instr :=
  match fieldNNN w with
  | 0x0E0#12 => .clearScreen
  | 0x0EE#12 => .ret
  | _ => .unmatched w

/-- Class 8, selected by N (R78). -/
def decodeClass8 (w : Word) : Instr :=
  match fieldN w with
  | 0x0#4 => .loadReg (fieldX w) (fieldY w)
  | 0x1#4 => .orReg (fieldX w) (fieldY w)
  | 0x2#4 => .andReg (fieldX w) (fieldY w)
  | 0x3#4 => .xorReg (fieldX w) (fieldY w)
  | 0x4#4 => .addReg (fieldX w) (fieldY w)
  | 0x5#4 => .subReg (fieldX w) (fieldY w)
  | 0x6#4 => .shiftRight (fieldX w) (fieldY w)
  | 0x7#4 => .subnReg (fieldX w) (fieldY w)
  | 0xE#4 => .shiftLeft (fieldX w) (fieldY w)
  | _ => .unmatched w

/-- Class E, selected by KK (R79). -/
def decodeClassE (w : Word) : Instr :=
  match fieldKK w with
  | 0x9E#8 => .skipKeyPressed (fieldX w)
  | 0xA1#8 => .skipKeyNotPressed (fieldX w)
  | _ => .unmatched w

/-- Class F, selected by KK (R79). -/
def decodeClassF (w : Word) : Instr :=
  match fieldKK w with
  | 0x07#8 => .getDelay (fieldX w)
  | 0x0A#8 => .waitKey (fieldX w)
  | 0x15#8 => .setDelay (fieldX w)
  | 0x18#8 => .setSound (fieldX w)
  | 0x1E#8 => .addIndex (fieldX w)
  | 0x29#8 => .fontAddress (fieldX w)
  | 0x33#8 => .storeBcd (fieldX w)
  | 0x55#8 => .storeRegs (fieldX w)
  | 0x65#8 => .loadRegs (fieldX w)
  | _ => .unmatched w

/-- The decoder, total on all 65536 words: the class nibble first, then the further selector fields (R74 to R80). A word that
selects no instruction decodes to the no-op `unmatched` and is never an error (R80). -/
def decode (w : Word) : Instr :=
  match fieldClass w with
  | 0x0#4 => decodeClass0 w
  | 0x1#4 => .jump (fieldNNN w)
  | 0x2#4 => .call (fieldNNN w)
  | 0x3#4 => .skipEqImm (fieldX w) (fieldKK w)
  | 0x4#4 => .skipNeImm (fieldX w) (fieldKK w)
  | 0x5#4 => if fieldN w = 0 then .skipEqReg (fieldX w) (fieldY w) else .unmatched w
  | 0x6#4 => .loadImm (fieldX w) (fieldKK w)
  | 0x7#4 => .addImm (fieldX w) (fieldKK w)
  | 0x8#4 => decodeClass8 w
  | 0x9#4 => if fieldN w = 0 then .skipNeReg (fieldX w) (fieldY w) else .unmatched w
  | 0xA#4 => .loadIndex (fieldNNN w)
  | 0xB#4 => .jumpOffset (fieldNNN w)
  | 0xC#4 => .random (fieldX w) (fieldKK w)
  | 0xD#4 => .draw (fieldX w) (fieldY w) (fieldN w)
  | 0xE#4 => decodeClassE w
  | _ => decodeClassF w

/-- Why a byte sequence holds no instruction. -/
inductive DecodeError where
  /-- Fewer than two bytes are left: every instruction is exactly two bytes long (R70). Raised by `decodeBytes` alone. The
  machine never meets it, since a fetch reads two bytes or raises FETCH_RANGE (R171). Safe. -/
  | truncated
  deriving DecidableEq, Repr

/-- Read one instruction from the front of a byte sequence: total on any bytes (R70, R71). -/
def decodeBytes : List Byte → Except DecodeError (Instr × List Byte)
  | hi :: lo :: rest => .ok (decode (wordOfBytes hi lo), rest)
  | _ => .error .truncated

/-! ### The encoder, from the same tables (R75 to R79, R82) -/

/-- KK = Y ++ N (R72). -/
def joinYN (y n : Nibble) : Byte := y ++ n
/-- NNN = X ++ KK (R72). -/
def joinXKK (x : Reg) (kk : Byte) : Addr12 := x ++ kk
/-- Class digit and NNN (R75, R82). -/
def wordNNN (c : Nibble) (nnn : Addr12) : Word := c ++ nnn
/-- Class digit, X and KK (R75, R79, R82). -/
def wordXKK (c : Nibble) (x : Reg) (kk : Byte) : Word := wordNNN c (joinXKK x kk)
/-- Class digit, X, Y and N (R75, R77, R78, R82). -/
def wordXYN (c : Nibble) (x y : Reg) (n : Nibble) : Word := wordXKK c x (joinYN y n)

/-- The word of an instruction ("put the class digit first, then X, then Y and N, or KK, or NNN", R82). -/
def encode : Instr → Word
  | .clearScreen => 0x00E0
  | .ret => 0x00EE
  | .jump nnn => wordNNN 0x1 nnn
  | .call nnn => wordNNN 0x2 nnn
  | .skipEqImm x kk => wordXKK 0x3 x kk
  | .skipNeImm x kk => wordXKK 0x4 x kk
  | .skipEqReg x y => wordXYN 0x5 x y 0x0
  | .loadImm x kk => wordXKK 0x6 x kk
  | .addImm x kk => wordXKK 0x7 x kk
  | .loadReg x y => wordXYN 0x8 x y 0x0
  | .orReg x y => wordXYN 0x8 x y 0x1
  | .andReg x y => wordXYN 0x8 x y 0x2
  | .xorReg x y => wordXYN 0x8 x y 0x3
  | .addReg x y => wordXYN 0x8 x y 0x4
  | .subReg x y => wordXYN 0x8 x y 0x5
  | .shiftRight x y => wordXYN 0x8 x y 0x6
  | .subnReg x y => wordXYN 0x8 x y 0x7
  | .shiftLeft x y => wordXYN 0x8 x y 0xE
  | .skipNeReg x y => wordXYN 0x9 x y 0x0
  | .loadIndex nnn => wordNNN 0xA nnn
  | .jumpOffset nnn => wordNNN 0xB nnn
  | .random x kk => wordXKK 0xC x kk
  | .draw x y n => wordXYN 0xD x y n
  | .skipKeyPressed x => wordXKK 0xE x 0x9E
  | .skipKeyNotPressed x => wordXKK 0xE x 0xA1
  | .getDelay x => wordXKK 0xF x 0x07
  | .waitKey x => wordXKK 0xF x 0x0A
  | .setDelay x => wordXKK 0xF x 0x15
  | .setSound x => wordXKK 0xF x 0x18
  | .addIndex x => wordXKK 0xF x 0x1E
  | .fontAddress x => wordXKK 0xF x 0x29
  | .storeBcd x => wordXKK 0xF x 0x33
  | .storeRegs x => wordXKK 0xF x 0x55
  | .loadRegs x => wordXKK 0xF x 0x65
  | .unmatched w => w

/-- The two bytes of an instruction, the one at the lower address first (R71, R82). -/
def encodeBytes (i : Instr) : List Byte := [highByte (encode i), lowByte (encode i)]

/-- The instruction word whose low `nbits` bits are those of `w` and whose other bits are 0. -/
def tableWord (nbits w : Nat) : Word := BitVec.ofNat 16 (w % 2 ^ nbits)

/-- The instruction the decoder reads from a table word of `nbits` bits (every row of spec/opcode_table.json has 16): the word
is laid out as the hardware stores it, the high byte at the lower address (R71), and given to `decodeBytes`. A word of more
than 16 bits is no instruction of this hardware (R70) and gives `none`. -/
def decodeTableWord (nbits w : Nat) : Option Instr :=
  if nbits ≤ 16 then
    match decodeBytes [highByte (tableWord nbits w), lowByte (tableWord nbits w)] with
    | .ok (i, _) => some i
    | .error _ => none
  else none

end Sys2Proof
end

