-- ==== Sys2Proof/Config.lean ====
section
/-! DEFINITION. What a machine fixes and the spec leaves open, and the free inputs of each cycle
(spec/00_scope.md rule R8, spec/10_state.md rules R36, R42, R43). None of the four has a body: no proof can rest on a value of
theirs. The default the spec gives FONT_DATA is `defaultFontData` in Machine/Ops.lean. -/

namespace Sys2Proof

/-- FONT_BASE, the address of the first font glyph, OPEN in the spec (R8, decision D1, log 3). It is bounded by
`FONT_BASE + 80 <= 0x200`, that is `FONT_BASE < 433`. Safe: every claim holds for every base the spec allows. -/
opaque Config.fontBase : Fin 433

/-- FONT_DATA, the 80 bytes of the font, a "named parameter with default" of the spec (R8, decision D2, log 4): glyph d is the five bytes
from `5 * d` on (R202). Safe: every claim holds for every font; a claim that depends on glyph shapes takes
`Config.fontData = defaultFontData`, or another font, as a premise. -/
opaque Config.fontData : Vector (BitVec 8) 80

/-- The key vector `keys_in` the host supplies to each cycle (R42, log 1): a free value, applied to the counter
`State.inputs`. Bit k is key k. Safe: "a model quantifies over all values". -/
opaque Config.keysIn : Nat → BitVec 16

/-- The random byte `rnd_in` of each cycle (R43, logs 1 and 2): a free value, applied to the counter `State.inputs`. Safe: no
distribution, no independence and no seed is assumed. -/
opaque Config.rndIn : Nat → BitVec 8

end Sys2Proof
end

