-- ==== Sys2Proof/Machine/State.lean ====
section
/-! DEFINITION. The state of the CHIP-8 CORE as plain data, its reset, and the reasons a run can stop
(spec/10_state.md rules R20 to R36, spec/60_exceptions.md rule R170). -/

namespace Sys2Proof.Machine

/-- Memory as the list of the cells that differ from the reset contents, strictly rising by address (R32; the canonical form
is `Memory.wf` and what an unlisted address reads as is `Memory.initial`, both in Machine/Ops.lean). -/
abbrev Memory := List Host.Cell

/-- The framebuffer `FB[y][x]` (R31): row `y`, and in it bit `x` for column `x`, 1 is lit. The packing of a row into a bit vector is
the model's (log 12); every access goes through `Framebuffer.pixel`, `Framebuffer.flip` and `Framebuffer.clear`. -/
abbrev Framebuffer := Vector (BitVec 64) 32

/-- The five causes of the fault latch (R170). These are values of the machine's own latch, not stops of the model: raising one
is a next state (R176). -/
inductive FaultCause where
  /-- Code 1: a fetch with `pc > 0x0FFE` (R171). -/
  | fetchRange
  /-- Code 2: call with `SP = 16` (R172). -/
  | stackOverflow
  /-- Code 3: return with `SP = 0` (R173). -/
  | stackUnderflow
  /-- Code 4: draw, store-bcd, store-regs or load-regs beyond 0x0FFF (R174). -/
  | dataRange
  /-- Code 5: skip-key-pressed or skip-key-not-pressed with `V[X] > 15` (R175). -/
  | keyRange
  deriving DecidableEq, Repr

/-- What the fault latch holds when it is not `none`: a cause and its 16-bit information word (R33, R170). -/
structure FaultRecord where
  cause : FaultCause
  info  : Word
  deriving DecidableEq, Repr

/-- The state of the machine: everything spec/10_state.md section 1 lists, and the model's own counter `inputs`. The random byte of a
cycle is no state (R36; log 2). -/
structure State where
  /-- V0 to VF (R20); `v[15]` is VF, the flag (R21). -/
  v      : Vector Byte 16
  /-- The index register I (R26). -/
  i      : Word
  /-- The program counter, 16 bits, never truncated to 12 (R23). -/
  pc     : Word
  /-- The stack pointer: the number of entries in use, 0 to 16 (R27, R28; log 11). -/
  sp     : Fin 17
  /-- `STACK[0]` to `STACK[15]` (R27). -/
  stack  : Vector Word 16
  /-- The delay timer DT (R29). -/
  dt     : Byte
  /-- The sound timer ST (R29). -/
  st     : Byte
  /-- The key latch: bit `k` is `KEY[k]` (R30). -/
  key    : BitVec 16
  /-- The framebuffer (R31). -/
  fb     : Framebuffer
  /-- Memory (R32). -/
  mem    : Memory
  /-- The fault latch FAULT (R33). -/
  fault  : Option FaultRecord
  /-- The MODEL's own: how many cycles have begun. The free inputs of a cycle are those at this index (R42, R43; log 1). -/
  inputs : Nat
  deriving DecidableEq, Repr

/-- Faults that stop the MODEL: there are none (log 6). Every event the spec calls a fault sets the machine's own latch FAULT and is
a next state (R176); a frozen core answers itself for ever (R41 step 0). No other access or value can stop a step. Safe: nothing
the spec gives an effect is stopped. -/
inductive Fault where
  deriving DecidableEq, Repr

/-- Refusals. -/
inductive Refusal where
  /-- Raised by an arm of `exec` for an instruction that has no meaning yet; safe. No arm raises it: all 35 have a meaning. -/
  | notModelled (mnemonic : String)
  /-- Raised by `loadRom` alone, for a ROM image longer than 3584 bytes: "refused before the core exists" (R58). No step and no
  instruction raises it. Safe: the spec gives no core state for it. -/
  | romTooLong
  deriving DecidableEq, Repr

/-- The machine right after `reset(rom)` with the empty ROM (R35, R200, R201): every register, timer, key and pixel 0, the stack
empty, `pc = 0x0200`, memory at its reset contents, no fault. A ROM is loaded by `loadRom` (log 8). `inputs` is the
model's own (log 1). -/
def State.reset : State where
  v      := Vector.replicate 16 0
  i      := 0x0000
  pc     := 0x0200
  sp     := 0
  stack  := Vector.replicate 16 0
  dt     := 0
  st     := 0
  key    := 0
  fb     := Vector.replicate 32 0
  mem    := []
  fault  := none
  inputs := 0

end Sys2Proof.Machine
end

