-- ==== Sys2Proof/Machine/Ops.lean ====
section
/-! DEFINITION. The named operations over registers, memory, stack, timers, keys, framebuffer and the fault latch; taking a fault;
the directives; ROM load and the host's outputs (spec/10_state.md, spec/20_memory.md, spec/60_exceptions.md, spec/70_reset_and_hazards.md). -/

namespace Sys2Proof.Machine

/-- What a meaning, a cycle and a step answer. -/
abbrev Result := Host.Outcome State Fault Refusal

/-! ### General registers (R20) -/

/-- `V[r]` (R10). -/
def State.readV (s : State) (r : Reg) : Byte := s.v[r.toNat]'r.isLt

/-- `V[r] <- b` (R10). -/
def State.writeV (s : State) (r : Reg) (b : Byte) : State :=
  { s with v := s.v.set r.toNat b r.isLt }

/-! ### Program-counter directives (R10, R23) -/

/-- What a handler tells the engine to do with the program counter: exactly one of four. -/
inductive Directive where
  /-- `next`: `pc <- pc + 2`. -/
  | next
  /-- `skip`: `pc <- pc + 4`. -/
  | skip
  /-- `jump(a)`: `pc <- a`. -/
  | jump (a : Word)
  /-- `repeat`: `pc <- pc`. -/
  | again
  deriving DecidableEq, Repr

/-- Step 7 of the cycle: apply the directive to pc, in 16 bits (R23, R24, R41). -/
def State.apply (s : State) : Directive → State
  | .next => { s with pc := s.pc + 2 }
  | .skip => { s with pc := s.pc + 4 }
  | .jump a => { s with pc := a }
  | .again => s

/-- An instruction's end without a fault: its effects stand in `s`, then the one directive is applied (R41 steps 6 and 7). -/
def finish (d : Directive) (s : State) : Result := .next (s.apply d)

/-- The two-way end of every skip instruction: `if c: skip else: next`. -/
def skipIf (c : Bool) (s : State) : Result := finish (if c then .skip else .next) s

/-! ### Taking a fault (R176) -/

/-- `raise Fault(cause, info)`: sets the fault latch, "this and only this" (R176). There is no return from a fault: no handler, no
saved state, no instruction that clears the latch; only `reset` leaves it (R178). -/
def raise (cause : FaultCause) (info : Word) (s : State) : Result :=
  .next { s with fault := some ⟨cause, info⟩ }

/-- The cause codes of R170. -/
def FaultCause.code : FaultCause → Nat
  | .fetchRange => 1
  | .stackOverflow => 2
  | .stackUnderflow => 3
  | .dataRange => 4
  | .keyRange => 5

/-! ### Memory (R32, R50 to R61) -/

/-- MEM_SIZE: valid addresses are 0 to 4095 (R7, R50). -/
def memSize : Nat := 4096

/-- ROM_BASE: the first address of the loaded program (R7). -/
def romBase : Nat := 0x200

/-- Glyphs 0 to 3 of the default font (R202). -/
def glyphs0to3 : List Byte :=
  [0xF0, 0x90, 0x90, 0x90, 0xF0, 0x20, 0x60, 0x20, 0x20, 0x70, 0xF0, 0x10, 0xF0, 0x80, 0xF0, 0xF0, 0x10, 0xF0, 0x10, 0xF0]
/-- Glyphs 4 to 7 of the default font (R202). -/
def glyphs4to7 : List Byte :=
  [0x90, 0x90, 0xF0, 0x10, 0x10, 0xF0, 0x80, 0xF0, 0x10, 0xF0, 0xF0, 0x80, 0xF0, 0x90, 0xF0, 0xF0, 0x10, 0x20, 0x40, 0x40]
/-- Glyphs 8 to B of the default font (R202). -/
def glyphs8toB : List Byte :=
  [0xF0, 0x90, 0xF0, 0x90, 0xF0, 0xF0, 0x90, 0xF0, 0x10, 0xF0, 0xF0, 0x90, 0xF0, 0x90, 0x90, 0xE0, 0x90, 0xE0, 0x90, 0xE0]
/-- Glyphs C to F of the default font (R202). -/
def glyphsCtoF : List Byte :=
  [0xF0, 0x80, 0x80, 0x80, 0xF0, 0xE0, 0x90, 0x90, 0x90, 0xE0, 0xF0, 0x80, 0xF0, 0x80, 0xF0, 0xF0, 0x80, 0xF0, 0x80, 0x80]

/-- The default the spec gives FONT_DATA, the table of R202 (R8, decision D2). No operation and no reset value uses it: it is there for
claims that name it as the premise `Config.fontData = defaultFontData` (log 4). -/
def defaultFontData : Vector Byte 80 := ⟨(glyphs0to3 ++ glyphs4to7 ++ glyphs8toB ++ glyphsCtoF).toArray, rfl⟩

/-- The reset contents of memory below the ROM for a font `data` at `base` (R35, R51, R200): the font's 80 bytes, and 0 elsewhere.
From `romBase` on it is 0 whatever the base, which is what `base + 80 <= 0x200` says (R8). -/
def fontImage (base : Nat) (data : Vector Byte 80) (a : Nat) : Byte :=
  if romBase ≤ a then 0
  else if h : base ≤ a ∧ a < base + 80 then data[a - base]'(by omega)
  else 0

/-- What an address that memory does not list reads as: its reset contents with no ROM loaded, for this machine's font at this
machine's base (R35, R36, R200; log 9). -/
def Memory.initial (a : Nat) : Byte := fontImage Config.fontBase.val Config.fontData a

/-- The listed byte of an address, if there is one. -/
def Memory.lookup : Memory → Nat → Option Byte
  | [], _ => none
  | (k, c) :: rest, a => if k = a then some c else Memory.lookup rest a

/-- `MemRead(a, 1)` (R10, R55). It never faults by itself; every operation of the machine checks the range first (R10, R56). -/
def Memory.read (m : Memory) (a : Nat) : Byte := (m.lookup a).getD (Memory.initial a)

/-- List the byte `b` at `a`, in place of what was listed there, keeping the order. -/
def Memory.insert (a : Nat) (b : Byte) : Memory → Memory
  | [] => [(a, b)]
  | (k, c) :: rest =>
    if a < k then (a, b) :: (k, c) :: rest
    else if a = k then (a, b) :: rest
    else (k, c) :: Memory.insert a b rest

/-- Unlist the address `a`. -/
def Memory.erase (a : Nat) : Memory → Memory
  | [] => []
  | (k, c) :: rest => if k = a then Memory.erase a rest else (k, c) :: Memory.erase a rest

/-- `MemWrite(a, 1, b)` (R10, R55): changes only the addressed byte. Writing what an unlisted address reads as removes the entry, so that
equal memories are equal data. -/
def Memory.write (m : Memory) (a : Nat) (b : Byte) : Memory :=
  if b = Memory.initial a then Memory.erase a m else Memory.insert a b m

/-- The canonical form: addresses strictly rising and below 4096 (R50), and no entry equal to what an unlisted address reads as. -/
abbrev Memory.wf (m : Memory) : Prop :=
  m.Pairwise (fun c d => c.1 < d.1) ∧ ∀ c ∈ m, c.1 < memSize ∧ c.2 ≠ Memory.initial c.1

/-- Does an access of `count` bytes at `a` leave memory? `last = a + (count − 1)` in integer arithmetic, and an access of no byte never
does (R56). -/
def Memory.beyond (a count : Nat) : Bool := decide (count ≥ 1 ∧ a + (count - 1) > 0x0FFF)

/-- The `n` bytes from `a` upward, in ascending address order (R52). -/
def Memory.readBytes (m : Memory) (a : Nat) : Nat → List Byte
  | 0 => []
  | n + 1 => m.read a :: Memory.readBytes m (a + 1) n

/-- Write the bytes from `a` upward, in ascending address order (R52, R60). -/
def Memory.writeBytes (m : Memory) (a : Nat) : List Byte → Memory
  | [] => m
  | b :: bs => Memory.writeBytes (m.write a b) (a + 1) bs

/-- Read one byte of memory; the spec's `MEM[a]`. -/
def State.readMem (s : State) (a : Nat) : Byte := s.mem.read a

/-- A data read of `n` bytes at the address in I: `none` when its last byte lies beyond 0x0FFF, before any effect (R56, R174). -/
def State.loadAtI (s : State) (n : Nat) : Option (List Byte) :=
  if Memory.beyond s.i.toNat n then none else some (s.mem.readBytes s.i.toNat n)

/-- A data write of the bytes at the address in I: `none` when its last byte lies beyond 0x0FFF, before any effect and with no partial
transfer (R56, R174). I is not changed. -/
def State.storeAtI (s : State) (bs : List Byte) : Option State :=
  if Memory.beyond s.i.toNat bs.length then none
  else some { s with mem := s.mem.writeBytes s.i.toNat bs }

/-! ### The return stack (R27, R28) -/

/-- Push a return address: `STACK[SP] <- w`, then `SP <- SP + 1`; `none` when all 16 entries are in use. -/
def State.push (s : State) (w : Word) : Option State :=
  if h : s.sp.val < 16 then
    some { s with stack := s.stack.set s.sp.val w h, sp := ⟨s.sp.val + 1, Nat.succ_lt_succ h⟩ }
  else none

/-- Pop a return address: `SP <- SP - 1`, then read `STACK[SP]`; the entry keeps its value; `none` when no entry is in use. -/
def State.pop (s : State) : Option (Word × State) :=
  if h : 0 < s.sp.val then
    some (s.stack[s.sp.val - 1]'(by have := s.sp.isLt; omega),
      { s with sp := ⟨s.sp.val - 1, by have := s.sp.isLt; omega⟩ })
  else none

/-! ### Timers (R29, R183) -/

/-- One count of a timer: down by 1 if nonzero, floored at 0. -/
def countDown (t : Byte) : Byte := if t = 0 then 0 else t - 1

/-- Step 2 of the cycle: both timers count down (R41). -/
def State.tickTimers (s : State) : State := { s with dt := countDown s.dt, st := countDown s.st }

/-! ### Keys and inputs (R30, R42, R43) -/

/-- Step 1 of the cycle: the whole key latch is loaded from `keys_in` (R41). The model also counts the cycle (log 1). -/
def State.latchInputs (s : State) (keysIn : BitVec 16) : State := { s with key := keysIn, inputs := s.inputs + 1 }

/-- `KEY[k]` (R30). -/
def State.keyHeld (s : State) (k : Nat) : Bool := s.key.getLsbD k

/-- The least index with `KEY[k] = 1`, scanning keys 0 to 15 in ascending order (R160). -/
def firstKey (key : BitVec 16) : Option Nat := (List.range 16).find? fun k => key.getLsbD k

/-- `KEY[k] <- 0` (R160: "consume it (clear it)"). -/
def State.clearKey (s : State) (k : Nat) : State := { s with key := s.key &&& ~~~(1#16 <<< k) }

/-! ### Framebuffer (R31) -/

/-- `FB[y][x]`: is the pixel in row `y`, column `x` lit? -/
def Framebuffer.pixel (fb : Framebuffer) (y : Fin 32) (x : Fin 64) : Bool := (fb[y.val]'y.isLt).getLsbD x.val

/-- `FB[y][x] <- FB[y][x] ^ 1`. -/
def Framebuffer.flip (fb : Framebuffer) (y : Fin 32) (x : Fin 64) : Framebuffer :=
  fb.set y.val ((fb[y.val]'y.isLt) ^^^ (1#64 <<< x.val)) y.isLt

/-- Every pixel unlit. -/
def Framebuffer.clear : Framebuffer := Vector.replicate 32 0

/-! ### Fetch (R41 step 3, R52, R71, R171) -/

/-- The word at pc, the byte at pc being the more significant; `none` when `pc > 0x0FFE`. Any pc up to 0x0FFE fetches, odd or even (R54). -/
def State.fetch (s : State) : Option Word :=
  if s.pc.toNat > 0x0FFE then none
  else some (wordOfBytes (s.readMem s.pc.toNat) (s.readMem (s.pc.toNat + 1)))

/-! ### ROM load (R58, R200) and the host's outputs (R44) -/

/-- `reset(rom)`: the reset state with byte j of the image at 0x200 + j; an image longer than 3584 bytes is refused and no core results
(R58, R200, R203). -/
def loadRom (rom : List Byte) : Result :=
  if romBase + rom.length ≤ memSize then
    .next { State.reset with mem := State.reset.mem.writeBytes romBase rom }
  else .refused .romTooLong

/-- The word `w` placed where the next cycle fetches, in a core that will fetch: at pc, or at ROM_BASE when no word can be fetched at pc;
the fault latch is `none`, since a frozen core fetches nothing (log 10). For `State.withFetchWord` alone: no instruction does this. -/
def State.placeWord (s : State) (w : Word) : State :=
  let pc := if s.pc.toNat > 0x0FFE then 0x0200#16 else s.pc
  { s with pc := pc, fault := none, mem := s.mem.writeBytes pc.toNat [highByte w, lowByte w] }

/-- `fb_out` (R44). -/
def State.fbOut (s : State) : Framebuffer := s.fb
/-- `dt_out` (R44). -/
def State.dtOut (s : State) : Byte := s.dt
/-- `st_out` (R44). -/
def State.stOut (s : State) : Byte := s.st
/-- `sound_active = (ST != 0)` (R44, R185). -/
def State.soundActive (s : State) : Bool := s.st != 0
/-- `fault_out`: none, or the cause code with its information word (R44, R170). -/
def State.faultOut (s : State) : Option (Nat × Word) := s.fault.map fun f => (f.cause.code, f.info)

end Sys2Proof.Machine
end

