-- ==== Sys2Proof/Machine/Flags.lean ====
section
/-! DEFINITION. The flag computations and the write of a result with its flag (spec/10_state.md rules R21 and R22,
spec/41_alu.md rules R110 and R117 to R121). VF is the only flag. -/

namespace Sys2Proof.Machine

/-- The value VF takes for a flag: 0 or 1, never another (R21). -/
def flagByte (f : Bool) : Byte := if f then 1 else 0

/-- add-reg: "1 if Vx + Vy > 255", on the unbounded integers (R110, R117). -/
def carryFlag (a b : Byte) : Bool := decide (a.toNat + b.toNat > 255)

/-- sub-reg and subn-reg: the strict unsigned comparison `a > b`, 0 on equality (R110, R118, R120). -/
def noBorrowFlag (a b : Byte) : Bool := decide (a.toNat > b.toNat)

/-- shift-right: bit 0 of the operand before the shift (R119). -/
def lowBitFlag (a : Byte) : Bool := a.getLsbD 0

/-- shift-left: bit 7 of the operand before the shift (R121). -/
def highBitFlag (a : Byte) : Bool := a.getLsbD 7

/-- The write priority of the flag-writing instructions: the result to V[X], then the flag to VF, so that with X = 15 the flag is what
VF holds (R22, decision D8). -/
def State.writeResultFlag (s : State) (x : Reg) (result : Byte) (flag : Bool) : State :=
  (s.writeV x result).writeV VF (flagByte flag)

end Sys2Proof.Machine
end

