-- ==== Sys2Proof/Machine/Operands.lean ====
section
/-! DEFINITION. The operand forms of spec/30_encoding.md rule R73: Vx and Vy are `State.readV`; KK is used as it is; NNN and register
values are zero-extended; N is a byte count; a block operand is V0 to VX. Nothing is sign-extended, scaled or shifted. -/

namespace Sys2Proof.Machine

/-- `zext_16(NNN)` (R73). -/
def zextAddr (nnn : Addr12) : Word := nnn.setWidth 16

/-- `zext_16(b)` of a register value (R10). -/
def zextByte (b : Byte) : Word := b.setWidth 16

/-- N as a byte count, 0 to 15 (R73). -/
def spriteHeight (n : Nibble) : Nat := n.toNat

/-- The register numbers 0 to X inclusive, ascending (R144, R145). -/
def regsUpTo (x : Reg) : List Reg := (List.range (x.toNat + 1)).map (BitVec.ofNat 4)

/-- The contents of V0 to VX, V0 first (R144). -/
def State.blockV (s : State) (x : Reg) : List Byte := (regsUpTo x).map s.readV

/-- Write bytes to consecutive registers in ascending register order, from register number `k` on (R60, R145). -/
def State.writeBlockFrom (s : State) (k : Nat) : List Byte → State
  | [] => s
  | b :: bs => State.writeBlockFrom (s.writeV (BitVec.ofNat 4 k) b) (k + 1) bs

/-- `V[0] <- b0`, `V[1] <- b1` and so on (R145). -/
def State.writeBlockV (s : State) (bs : List Byte) : State := s.writeBlockFrom 0 bs

/-- The three decimal digits of a byte, hundreds first, each a whole byte 0 to 9 (R143). -/
def bcdDigits (b : Byte) : List Byte :=
  [BitVec.ofNat 8 (b.toNat / 100), BitVec.ofNat 8 (b.toNat / 10 % 10), BitVec.ofNat 8 (b.toNat % 10)]

end Sys2Proof.Machine
end

