-- ==== Sys2Proof/Machine/Alu.lean ====
section
/-! DEFINITION. The register and ALU instructions (spec/41_alu.md rules R110 to R122). Each ends with `next`, raises no fault and touches
no memory. Arithmetic on bytes wraps modulo 256. -/

namespace Sys2Proof.Machine

/-- load-imm Vx, KK (R111). -/
def execLoadImm (x : Reg) (kk : Byte) (s : State) : Result := finish .next (s.writeV x kk)

/-- add-imm Vx, KK (R112): no flag. -/
def execAddImm (x : Reg) (kk : Byte) (s : State) : Result := finish .next (s.writeV x (s.readV x + kk))

/-- load-reg Vx, Vy (R113). -/
def execLoadReg (x y : Reg) (s : State) : Result := finish .next (s.writeV x (s.readV y))

/-- or Vx, Vy (R114): no flag. -/
def execOrReg (x y : Reg) (s : State) : Result := finish .next (s.writeV x (s.readV x ||| s.readV y))

/-- and Vx, Vy (R115): no flag. -/
def execAndReg (x y : Reg) (s : State) : Result := finish .next (s.writeV x (s.readV x &&& s.readV y))

/-- xor Vx, Vy (R116): no flag. -/
def execXorReg (x y : Reg) (s : State) : Result := finish .next (s.writeV x (s.readV x ^^^ s.readV y))

/-- add-reg Vx, Vy (R117): the flag is the carry. -/
def execAddReg (x y : Reg) (s : State) : Result :=
  finish .next (s.writeResultFlag x (s.readV x + s.readV y) (carryFlag (s.readV x) (s.readV y)))

/-- sub-reg Vx, Vy (R118): the flag is Vx > Vy, strictly. -/
def execSubReg (x y : Reg) (s : State) : Result :=
  finish .next (s.writeResultFlag x (s.readV x - s.readV y) (noBorrowFlag (s.readV x) (s.readV y)))

/-- shift-right Vx (R119): in place, logical, the Y field ignored; the flag is the bit shifted out. -/
def execShiftRight (x _y : Reg) (s : State) : Result :=
  finish .next (s.writeResultFlag x (s.readV x >>> 1) (lowBitFlag (s.readV x)))

/-- subn-reg Vx, Vy (R120): the flag is Vy > Vx, strictly. -/
def execSubnReg (x y : Reg) (s : State) : Result :=
  finish .next (s.writeResultFlag x (s.readV y - s.readV x) (noBorrowFlag (s.readV y) (s.readV x)))

/-- shift-left Vx (R121): in place, the Y field ignored; the flag is the bit shifted out. -/
def execShiftLeft (x _y : Reg) (s : State) : Result :=
  finish .next (s.writeResultFlag x (s.readV x <<< 1) (highBitFlag (s.readV x)))

/-- random Vx, KK with the random byte `rndIn` of its cycle, masked with KK (R122). -/
def randomMasked (rndIn : Byte) (x : Reg) (kk : Byte) (s : State) : Result := finish .next (s.writeV x (rndIn &&& kk))

/-- random Vx, KK (R122) with the free random byte of the current cycle (R43; logs 1 and 2). -/
def execRandom (x : Reg) (kk : Byte) (s : State) : Result := randomMasked (Config.rndIn s.inputs) x kk s

end Sys2Proof.Machine
end

