-- ==== Sys2Proof/Machine/ControlFlow.lean ====
section
/-! DEFINITION. The control-flow instructions (spec/40_control_flow.md rules R90 to R99) and the unmatched word
(spec/30_encoding.md rule R80). -/

namespace Sys2Proof.Machine

/-- return (R91): SP is decremented, then STACK[SP] is jumped to, exactly; with an empty stack STACK_UNDERFLOW (R173). -/
def execRet (s : State) : Result :=
  match s.pop with
  | none => raise .stackUnderflow s.pc s
  | some (a, s') => finish (.jump a) s'

/-- jump NNN (R92). -/
def execJump (nnn : Addr12) (s : State) : Result := finish (.jump (zextAddr nnn)) s

/-- call NNN (R93): pushes `pc + 2`, the address of the instruction after the call (decision D10); with a full stack STACK_OVERFLOW
(R172). -/
def execCall (nnn : Addr12) (s : State) : Result :=
  match s.push (s.pc + 2) with
  | none => raise .stackOverflow s.pc s
  | some s' => finish (.jump (zextAddr nnn)) s'

/-- skip-eq-imm Vx, KK (R94). -/
def execSkipEqImm (x : Reg) (kk : Byte) (s : State) : Result := skipIf (s.readV x == kk) s

/-- skip-ne-imm Vx, KK (R95). -/
def execSkipNeImm (x : Reg) (kk : Byte) (s : State) : Result := skipIf (s.readV x != kk) s

/-- skip-eq-reg Vx, Vy (R96). -/
def execSkipEqReg (x y : Reg) (s : State) : Result := skipIf (s.readV x == s.readV y) s

/-- skip-ne-reg Vx, Vy (R97). -/
def execSkipNeReg (x y : Reg) (s : State) : Result := skipIf (s.readV x != s.readV y) s

/-- jump-offset NNN (R98): the 16-bit sum of NNN and V0, not reduced modulo 4096; always V0. -/
def execJumpOffset (nnn : Addr12) (s : State) : Result := finish (.jump (zextAddr nnn + zextByte (s.readV V0))) s

/-- An unmatched word: a no-operation, the directive is `next` (R80). The word itself is not used. -/
def execUnmatched (_w : Word) (s : State) : Result := finish .next s

end Sys2Proof.Machine
end

