-- ==== Sys2Proof/Machine/Display.lean ====
section
/-! DEFINITION. The display instructions, the sprite-draw collision unit and the XOR compositor (spec/42_display.md rules R130 to R133). -/

namespace Sys2Proof.Machine

/-- clear-screen (R130): every pixel unlit; VF is not written. -/
def execClearScreen (s : State) : Result := finish .next { s with fb := Framebuffer.clear }

/-- The framebuffer and the collision flag `hit` as they pass through the loops of R131. -/
structure Canvas where
  fb  : Framebuffer
  hit : Bool
  deriving DecidableEq, Repr

/-- One sprite bit: the pixel in column `(x0 + c) mod 64` of row `y mod 32` is flipped if bit `7 - c` of the sprite byte is 1, and a lit
pixel turned unlit is a hit (R131; bit 7 is the leftmost pixel, decision D14, log 14). -/
def drawBit (x0 y : Nat) (b : Byte) (p : Canvas) (c : Nat) : Canvas :=
  if b.getLsbD (7 - c) then
    ⟨p.fb.flip (Fin.ofNat 32 y) (Fin.ofNat 64 (x0 + c)),
      p.hit || p.fb.pixel (Fin.ofNat 32 y) (Fin.ofNat 64 (x0 + c))⟩
  else p

/-- One sprite row: its 8 bits from left to right (R131). -/
def drawRow (x0 y : Nat) (b : Byte) (p : Canvas) : Canvas := (List.range 8).foldl (drawBit x0 y b) p

/-- The rows of a sprite, from row `y` downward (R131). -/
def drawRows (x0 y : Nat) : List Byte → Canvas → Canvas
  | [], p => p
  | b :: bs, p => drawRows x0 (y + 1) bs (drawRow x0 y b p)

/-- draw Vx, Vy, N (R131): the origin is reduced and the range tested before any effect; the sprite bytes are read from memory as it
stands; VF is written on every execution, last. With N = 0 nothing is read and VF becomes 0. -/
def execDraw (x y : Reg) (n : Nibble) (s : State) : Result :=
  match s.loadAtI (spriteHeight n) with
  | none => raise .dataRange s.i s
  | some sprite =>
    let p := drawRows ((s.readV x).toNat % 64) ((s.readV y).toNat % 32) sprite ⟨s.fb, false⟩
    finish .next ({ s with fb := p.fb }.writeV VF (flagByte p.hit))

end Sys2Proof.Machine
end

