-- ==== Sys2Proof/Machine/IndexMemory.lean ====
section
/-! DEFINITION. The index-register, BCD and memory block instructions (spec/43_index_memory.md rules R140 to R146). Each ends with `next`;
none writes VF as a flag; a memory access never changes I. -/

namespace Sys2Proof.Machine

/-- load-index NNN (R140). -/
def execLoadIndex (nnn : Addr12) (s : State) : Result := finish .next { s with i := zextAddr nnn }

/-- add-index Vx (R141): modulo 65536, no flag. -/
def execAddIndex (x : Reg) (s : State) : Result := finish .next { s with i := s.i + zextByte (s.readV x) }

/-- `FONT_BASE + 5 * Vx`, with the whole byte of Vx (R142). -/
def fontAddress (b : Byte) : Word := BitVec.ofNat 16 Config.fontBase.val + 5 * zextByte b

/-- font-address Vx (R142). -/
def execFontAddress (x : Reg) (s : State) : Result := finish .next { s with i := fontAddress (s.readV x) }

/-- store-bcd Vx (R143): the decimal digits of Vx at I, I + 1, I + 2; DATA_RANGE when I + 2 > 0x0FFF. -/
def execStoreBcd (x : Reg) (s : State) : Result :=
  match s.storeAtI (bcdDigits (s.readV x)) with
  | none => raise .dataRange s.i s
  | some s' => finish .next s'

/-- store-regs (R144): V0 to VX to I upward; X is the number of the last register; DATA_RANGE when I + X > 0x0FFF. -/
def execStoreRegs (x : Reg) (s : State) : Result :=
  match s.storeAtI (s.blockV x) with
  | none => raise .dataRange s.i s
  | some s' => finish .next s'

/-- load-regs (R145): V0 to VX from I upward; DATA_RANGE when I + X > 0x0FFF. -/
def execLoadRegs (x : Reg) (s : State) : Result :=
  match s.loadAtI (x.toNat + 1) with
  | none => raise .dataRange s.i s
  | some bs => finish .next (s.writeBlockV bs)

end Sys2Proof.Machine
end

