-- ==== Sys2Proof/Machine/TimersInput.lean ====
section
/-! DEFINITION. The timer and keypad instructions (spec/44_timers_input.md rules R155 to R161). DT and ST are as this cycle's decrement
left them, KEY as this cycle's load left it (R41). -/

namespace Sys2Proof.Machine

/-- get-delay Vx (R155). -/
def execGetDelay (x : Reg) (s : State) : Result := finish .next (s.writeV x s.dt)

/-- set-delay Vx (R156). -/
def execSetDelay (x : Reg) (s : State) : Result := finish .next { s with dt := s.readV x }

/-- set-sound Vx (R157). -/
def execSetSound (x : Reg) (s : State) : Result := finish .next { s with st := s.readV x }

/-- skip-key-pressed Vx (R158): the key whose number is the content of Vx; KEY_RANGE above 15 (R175). -/
def execSkipKeyPressed (x : Reg) (s : State) : Result :=
  if (s.readV x).toNat > 15 then raise .keyRange (zextByte (s.readV x)) s
  else skipIf (s.keyHeld (s.readV x).toNat) s

/-- skip-key-not-pressed Vx (R159): as R158 with the condition inverted. -/
def execSkipKeyNotPressed (x : Reg) (s : State) : Result :=
  if (s.readV x).toNat > 15 then raise .keyRange (zextByte (s.readV x)) s
  else skipIf (!s.keyHeld (s.readV x).toNat) s

/-- The state after wait-key (R160): with no key held only `repeat`; otherwise the least held key is cleared, its number goes to Vx, and
`next`. -/
def waitKeyState (x : Reg) (s : State) : State :=
  match firstKey s.key with
  | none => s.apply .again
  | some k => ((s.clearKey k).writeV x (BitVec.ofNat 8 k)).apply .next

/-- wait-key Vx (R160): a busy-wait; it never faults. -/
def execWaitKey (x : Reg) (s : State) : Result := .next (waitKeyState x s)

end Sys2Proof.Machine
end

