-- ==== Sys2Proof/Machine/Cycle.lean ====
section
/-! DEFINITION. The cycle of spec/10_state.md rule R41 with its two inputs. -/

namespace Sys2Proof.Machine

/-- Steps 1 and 2 of the cycle: the key latch is loaded, then both timers count down (R41). -/
def State.begin (s : State) (keysIn : BitVec 16) : State := (s.latchInputs keysIn).tickTimers

/-- Steps 6 and 7 of the cycle with its random byte `rndIn`, "sampled only when the instruction of that cycle is random and ignored
otherwise" (R43). With the free byte of the cycle it is `exec` (log 2). -/
def execWith (rndIn : Byte) (i : Instr) (s : State) : Result :=
  match i with
  | .random x kk => randomMasked rndIn x kk s
  | i => exec i s

/-- Steps 3 to 7 of the cycle: fetch (or FETCH_RANGE with pc, R171), decode, and execute the selected rule with its directive. -/
def fetchExec (rndIn : Byte) (s : State) : Result :=
  match s.fetch with
  | none => raise .fetchRange s.pc s
  | some w => execWith rndIn (decode w) s

/-- `cycle(keys_in, rnd_in)` (R41). A core whose fault latch is set is frozen: nothing changes (step 0). -/
def cycle (keysIn : BitVec 16) (rndIn : Byte) (s : State) : Result :=
  match s.fault with
  | some _ => .next s
  | none => fetchExec rndIn (s.begin keysIn)

end Sys2Proof.Machine
end

