-- ==== Sys2Proof/Machine/Step.lean ====
section
/-! DEFINITION. One step of the machine: one cycle with the next pair of free inputs (spec/10_state.md rules R40 to R45). -/

namespace Sys2Proof.Machine

/-- One invocation of the core by the host: the next cycle, with the free inputs at its index. The inputs are free values, so a claim
about every step is a claim about every key vector and every random byte (R42, R43; log 1). -/
def step (s : State) : Host.Outcome State Fault Refusal :=
  cycle (Config.keysIn (s.inputs + 1)) (Config.rndIn (s.inputs + 1)) s

/-- The state in which the very next step fetches and runs the instruction word of the table's numbering (logs 8, 10 and 22). -/
def State.withFetchWord (s : State) (nbits w : Nat) : State := s.placeWord (tableWord nbits w)

end Sys2Proof.Machine
end

