-- ==== Sys2Proof/Safety.lean ====
section
/-! DEFINITION. The terms claims are stated in: the pieces of state and what a frame says of them, the fault conditions of
spec/60_exceptions.md rule R170 written as a table, the sprite image of spec/42_display.md rule R131 written as a set of pixels, runs of
cycles, and the invariant of a healthy core. None of it is used by the machine. -/

namespace Sys2Proof.Safety

open Sys2Proof.Machine

/-! ### Frames -/

/-- One piece of state (spec/10_state.md section 1; the last is the model's own). -/
inductive Part where
  /-- `V[r]`. -/
  | v (r : Reg)
  /-- The index register I. -/
  | i
  /-- The program counter. -/
  | pc
  /-- The stack pointer. -/
  | sp
  /-- `STACK[k]`. -/
  | stack (k : Fin 16)
  /-- The delay timer. -/
  | dt
  /-- The sound timer. -/
  | st
  /-- `KEY[k]`. -/
  | key (k : Fin 16)
  /-- `FB[y][x]`. -/
  | pixel (y : Fin 32) (x : Fin 64)
  /-- The byte of memory at an address. -/
  | mem (a : Nat)
  /-- The fault latch. -/
  | fault
  /-- The model's counter of cycles begun. -/
  | inputs
  deriving DecidableEq, Repr

/-- The piece of state is the same in `t` as in `s`. -/
def Part.Same (s t : State) : Part → Prop
  | .v r => t.readV r = s.readV r
  | .i => t.i = s.i
  | .pc => t.pc = s.pc
  | .sp => t.sp = s.sp
  | .stack k => t.stack[k.val] = s.stack[k.val]
  | .dt => t.dt = s.dt
  | .st => t.st = s.st
  | .key k => t.keyHeld k.val = s.keyHeld k.val
  | .pixel y x => t.fb.pixel y x = s.fb.pixel y x
  | .mem a => t.readMem a = s.readMem a
  | .fault => t.fault = s.fault
  | .inputs => t.inputs = s.inputs

/-- The frame: every piece of state outside `written` is the same in `t` as in `s`; in particular every byte of memory, every
register, every pixel and every stack entry outside it. -/
def KeepsAllBut (written : Part → Prop) (s t : State) : Prop := ∀ p, ¬ written p → p.Same s t

/-- The frame of an instruction that writes exactly the listed pieces. -/
def KeepsAllButList (written : List Part) (s t : State) : Prop := KeepsAllBut (fun p => p ∈ written) s t

/-! ### The fault table (R170) -/

/-- The instruction that the next cycle would fetch, if a fetch is possible. -/
def nextInstr (s : State) : Option Instr := s.fetch.map decode

/-- The table of R170: the fault an instruction raises when it executes in `s`, with its information word, or `none`. -/
def faultOf (i : Instr) (s : State) : Option FaultRecord :=
  match i with
  | .call _ => if s.sp.val = 16 then some ⟨.stackOverflow, s.pc⟩ else none
  | .ret => if s.sp.val = 0 then some ⟨.stackUnderflow, s.pc⟩ else none
  | .draw _ _ n => if 1 ≤ n.toNat ∧ 0x0FFF < s.i.toNat + (n.toNat - 1) then some ⟨.dataRange, s.i⟩ else none
  | .storeBcd _ => if 0x0FFF < s.i.toNat + 2 then some ⟨.dataRange, s.i⟩ else none
  | .storeRegs x => if 0x0FFF < s.i.toNat + x.toNat then some ⟨.dataRange, s.i⟩ else none
  | .loadRegs x => if 0x0FFF < s.i.toNat + x.toNat then some ⟨.dataRange, s.i⟩ else none
  | .skipKeyPressed x => if 15 < (s.readV x).toNat then some ⟨.keyRange, (s.readV x).setWidth 16⟩ else none
  | .skipKeyNotPressed x => if 15 < (s.readV x).toNat then some ⟨.keyRange, (s.readV x).setWidth 16⟩ else none
  | .clearScreen | .jump _ | .skipEqImm _ _ | .skipNeImm _ _ | .skipEqReg _ _ | .skipNeReg _ _ | .jumpOffset _
  | .loadImm _ _ | .addImm _ _ | .loadReg _ _ | .orReg _ _ | .andReg _ _ | .xorReg _ _ | .addReg _ _ | .subReg _ _
  | .shiftRight _ _ | .subnReg _ _ | .shiftLeft _ _ | .random _ _ | .loadIndex _ | .addIndex _ | .fontAddress _
  | .getDelay _ | .waitKey _ | .setDelay _ | .setSound _ | .unmatched _ => none

/-- The fault the fetch or the fetched instruction raises in `s` (R170, R171, R177), or `none`. -/
def faultNow (s : State) : Option FaultRecord :=
  match nextInstr s with
  | none => some ⟨.fetchRange, s.pc⟩
  | some i => faultOf i s

/-! ### Which instructions write VF (R21) -/

/-- The six instructions that write VF as a flag (R21). -/
def isFlagWriter : Instr → Bool
  | .addReg _ _ | .subReg _ _ | .shiftRight _ _ | .subnReg _ _ | .shiftLeft _ _ | .draw _ _ _ => true
  | .clearScreen | .ret | .jump _ | .call _ | .skipEqImm _ _ | .skipNeImm _ _ | .skipEqReg _ _ | .skipNeReg _ _
  | .jumpOffset _ | .loadImm _ _ | .addImm _ _ | .loadReg _ _ | .orReg _ _ | .andReg _ _ | .xorReg _ _ | .random _ _
  | .loadIndex _ | .addIndex _ | .fontAddress _ | .storeBcd _ | .storeRegs _ | .loadRegs _ | .skipKeyPressed _
  | .skipKeyNotPressed _ | .getDelay _ | .waitKey _ | .setDelay _ | .setSound _ | .unmatched _ => false

/-- The instructions that write VF as an ordinary destination, when X = 15 (R21). -/
def writesVFAsOrdinary : Instr → Bool
  | .loadImm x _ | .addImm x _ | .loadReg x _ | .orReg x _ | .andReg x _ | .xorReg x _ | .random x _ | .getDelay x
  | .waitKey x | .loadRegs x => x == VF
  | .clearScreen | .ret | .jump _ | .call _ | .skipEqImm _ _ | .skipNeImm _ _ | .skipEqReg _ _ | .skipNeReg _ _
  | .jumpOffset _ | .addReg _ _ | .subReg _ _ | .shiftRight _ _ | .subnReg _ _ | .shiftLeft _ _ | .draw _ _ _
  | .loadIndex _ | .addIndex _ | .fontAddress _ | .storeBcd _ | .storeRegs _ | .skipKeyPressed _ | .skipKeyNotPressed _
  | .setDelay _ | .setSound _ | .unmatched _ => false

/-! ### The sprite image (R131) -/

/-- A sprite bit of 1 of `draw Vx, Vy, N` in `s` falls on the pixel in row `row` and column `col`: bit `7 - c` of the byte at I + r, placed
at row `(Vy mod 32 + r) mod 32` and column `(Vx mod 64 + c) mod 64` (R131). -/
def SpriteCovers (s : State) (x y : Reg) (n : Nibble) (row : Fin 32) (col : Fin 64) : Prop :=
  ∃ r c : Nat, r < n.toNat ∧ c < 8 ∧
    row.val = ((s.readV y).toNat % 32 + r) % 32 ∧ col.val = ((s.readV x).toNat % 64 + c) % 64 ∧
    (s.readMem (s.i.toNat + r)).getLsbD (7 - c) = true

/-! ### Runs of cycles (R40, R45) -/

/-- Run one cycle for each pair `(keys_in, rnd_in)` of the list. DESIGN CHOICE (log 23): the end of a run is the state after n cycles, n the
length of the list. The spec fixes no end of a run and leaves its definition to the model (70_reset_and_hazards.md R206). -/
def runCycles : List (BitVec 16 × Byte) → State → Result
  | [], s => .next s
  | (k, r) :: rest, s =>
    match cycle k r s with
    | .next t => runCycles rest t
    | .fault f => .fault f
    | .refused f => .refused f

/-- Along the run no cycle starts frozen and none executes set-delay. -/
def NoSetDelay : List (BitVec 16 × Byte) → State → Prop
  | [], _ => True
  | (k, r) :: rest, s =>
    s.fault = none ∧ (∀ x, nextInstr s ≠ some (.setDelay x)) ∧ ∀ t, cycle k r s = .next t → NoSetDelay rest t

/-- Along the run no cycle starts frozen and none executes set-sound. -/
def NoSetSound : List (BitVec 16 × Byte) → State → Prop
  | [], _ => True
  | (k, r) :: rest, s =>
    s.fault = none ∧ (∀ x, nextInstr s ≠ some (.setSound x)) ∧ ∀ t, cycle k r s = .next t → NoSetSound rest t

/-! ### The invariant of a healthy core -/

/-- What every reachable state satisfies: memory is in its canonical form below 4096; pc is at most 0x10FE (R24, R98); every return address
in use lies from 0x0002 to 0x1000 (R27); and a latched fault is the very one the fetch or the instruction at pc raises in this state,
which is what "faults are precise" says (R176). -/
structure Healthy (s : State) : Prop where
  memWf : s.mem.wf
  pcBound : s.pc.toNat ≤ 0x10FE
  stackBound : ∀ k : Fin 16, k.val < s.sp.val → 0x0002 ≤ s.stack[k.val].toNat ∧ s.stack[k.val].toNat ≤ 0x1000
  faultPrecise : ∀ f, s.fault = some f → faultNow s = some f

end Sys2Proof.Safety
end

