-- ==== Sys2Proof/Certificates/Slice0/Obligations.lean ====
section
/-! DEFINITION. The statements for the provers. Each docstring names the rule of spec/ it formalises. Where a rule is the spec's own decision
on what its source leaves open, the docstring says so. `expect` is holds for all of them. -/

open Sys2Proof Sys2Proof.Machine Sys2Proof.Safety

/-! ### Reset and ROM load -/

/-- R35, R58: `reset(rom)` accepts exactly the images of at most 3584 bytes and leaves the state of the table of R35, with the font at
FONT_BASE, byte j of the image at 0x200 + j and 0x00 everywhere else; `State.reset` is the case of the empty image. The zeros are
the spec's own decision D12; the font is the machine's parameter FONT_DATA, whatever its 80 bytes (log 4). -/
def Obligations.ResetLeavesTheStatedState : Prop :=
  (∀ rom : List Byte, rom.length ≤ 3584 → ∃ t, loadRom rom = .next t ∧
    (∀ r, t.readV r = 0) ∧ t.i = 0 ∧ t.pc = 0x0200 ∧ t.sp.val = 0 ∧ (∀ k : Fin 16, t.stack[k.val] = 0) ∧
    t.dt = 0 ∧ t.st = 0 ∧ (∀ k : Fin 16, t.keyHeld k.val = false) ∧ (∀ y x, t.fb.pixel y x = false) ∧ t.fault = none ∧
    Config.fontBase.val + 80 ≤ 0x200 ∧
    (∀ j : Fin 80, t.readMem (Config.fontBase.val + j.val) = Config.fontData[j.val]) ∧
    (∀ j, j < rom.length → t.readMem (0x200 + j) = rom.getD j 0) ∧
    (∀ a, a < 4096 → ¬ (Config.fontBase.val ≤ a ∧ a < Config.fontBase.val + 80) →
      ¬ (0x200 ≤ a ∧ a < 0x200 + rom.length) → t.readMem a = 0)) ∧
  (∀ rom : List Byte, 3584 < rom.length → loadRom rom = .refused .romTooLong) ∧
  loadRom [] = .next State.reset

/-- The reset state meets the invariant (10_state.md R24, R27, R35; 60_exceptions.md R176). The invariant itself is the model's. -/
def Obligations.ResetMeetsTheInvariant : Prop := Healthy State.reset

/-- Every step, and every cycle whatever its inputs, keeps the invariant: the canonical form of memory, the bound on pc, the bounds on the
return addresses in use, and the preciseness of a latched fault (10_state.md R24, R27; 60_exceptions.md R176). -/
def Obligations.EveryStepKeepsTheInvariant : Prop :=
  (∀ s t : State, Healthy s → Sys2Proof.Machine.step s = .next t → Healthy t) ∧
  (∀ (keysIn : BitVec 16) (rndIn : Byte) (s t : State), Healthy s → cycle keysIn rndIn s = .next t → Healthy t)

/-! ### Encoding -/

/-- Decoding the word of a well-formed instruction gives the instruction back, every operand at every value (30_encoding.md sections 2, 3 and 5). -/
def Obligations.DecodeOfEncodeIsTheInstruction : Prop :=
  ∀ i : Instr, i.wellFormed = true → decode (encode i) = i

/-- Every one of the 65536 words decodes to a well-formed instruction, and that instruction's word is the word itself: no bit is dropped
(30_encoding.md R71 to R81). -/
def Obligations.EncodeOfDecodeIsTheWord : Prop :=
  ∀ w : Word, (decode w).wellFormed = true ∧ encode (decode w) = w

/-- No word selects two rows of the opcode table, and a word decodes to `unmatched` exactly when it selects none (R80, R81, R83; R81 is
the spec's own derivation). -/
def Obligations.TableRowsNeverOverlapAndDecodeFollowsThem : Prop :=
  (∀ w : Word, ∀ r ∈ rows, ∀ q ∈ rows, r.selects w = true → q.selects w = true → r = q) ∧
  (∀ w : Word, decode w = .unmatched w ↔ ∀ r ∈ rows, ¬ (w &&& r.mask = r.pattern)) ∧
  rows.length = 34

/-- R75: the ten classes that decode on the class nibble alone, with their operand fields. -/
def Obligations.ClassNibbleSelectsTenInstructions : Prop :=
  ∀ (x y : Reg) (n : Nibble) (kk : Byte) (nnn : Addr12),
    decode (wordNNN 0x1 nnn) = .jump nnn ∧ decode (wordNNN 0x2 nnn) = .call nnn ∧
    decode (wordXKK 0x3 x kk) = .skipEqImm x kk ∧ decode (wordXKK 0x4 x kk) = .skipNeImm x kk ∧
    decode (wordXKK 0x6 x kk) = .loadImm x kk ∧ decode (wordXKK 0x7 x kk) = .addImm x kk ∧
    decode (wordNNN 0xA nnn) = .loadIndex nnn ∧ decode (wordNNN 0xB nnn) = .jumpOffset nnn ∧
    decode (wordXKK 0xC x kk) = .random x kk ∧ decode (wordXYN 0xD x y n) = .draw x y n

/-- R76, R77, R78: classes 0, 5, 8 and 9 need the further fields, and match them exactly; every other word of these classes is unmatched. -/
def Obligations.FurtherFieldsSelectInClasses0589 : Prop :=
  (∀ nnn : Addr12, decode (wordNNN 0x0 nnn) =
    if nnn = 0x0E0 then .clearScreen else if nnn = 0x0EE then .ret else .unmatched (wordNNN 0x0 nnn)) ∧
  (∀ (x y : Reg) (n : Nibble), decode (wordXYN 0x5 x y n) =
    if n = 0 then .skipEqReg x y else .unmatched (wordXYN 0x5 x y n)) ∧
  (∀ (x y : Reg) (n : Nibble), decode (wordXYN 0x9 x y n) =
    if n = 0 then .skipNeReg x y else .unmatched (wordXYN 0x9 x y n)) ∧
  (∀ (x y : Reg) (n : Nibble), decode (wordXYN 0x8 x y n) =
    if n = 0x0 then .loadReg x y else if n = 0x1 then .orReg x y else if n = 0x2 then .andReg x y
    else if n = 0x3 then .xorReg x y else if n = 0x4 then .addReg x y else if n = 0x5 then .subReg x y
    else if n = 0x6 then .shiftRight x y else if n = 0x7 then .subnReg x y else if n = 0xE then .shiftLeft x y
    else .unmatched (wordXYN 0x8 x y n))

/-- R79: classes E and F are selected by KK, exactly; every other word of these classes is unmatched. -/
def Obligations.TrailingByteSelectsInClassesEAndF : Prop :=
  (∀ (x : Reg) (kk : Byte), decode (wordXKK 0xE x kk) =
    if kk = 0x9E then .skipKeyPressed x else if kk = 0xA1 then .skipKeyNotPressed x
    else .unmatched (wordXKK 0xE x kk)) ∧
  (∀ (x : Reg) (kk : Byte), decode (wordXKK 0xF x kk) =
    if kk = 0x07 then .getDelay x else if kk = 0x0A then .waitKey x else if kk = 0x15 then .setDelay x
    else if kk = 0x18 then .setSound x else if kk = 0x1E then .addIndex x else if kk = 0x29 then .fontAddress x
    else if kk = 0x33 then .storeBcd x else if kk = 0x55 then .storeRegs x else if kk = 0x65 then .loadRegs x
    else .unmatched (wordXKK 0xF x kk))

/-- A few words spelled out from the spec decode to the instruction they stand for (95_test_vectors.md section 2.6 and 30_encoding.md R82). -/
def Obligations.SpelledWordsDecode : Prop :=
  decode 0x6005 = .loadImm 0 0x05 ∧ decode 0x1200 = .jump 0x200 ∧ decode 0x00E0 = .clearScreen ∧
  decode 0xD125 = .draw 1 2 5 ∧ decode 0x8ABE = .shiftLeft 0xA 0xB ∧ decode 0xE09E = .skipKeyPressed 0 ∧
  decode 0xF565 = .loadRegs 5 ∧ decode 0x5001 = .unmatched 0x5001

/-! ### The cycle -/

/-- The cycle of 10_state.md section 11 (R41): a frozen core changes nothing; otherwise a cycle loads the key latch, counts both timers down,
and then either raises FETCH_RANGE or fetches the big-endian word at pc and runs the decoded instruction with the cycle's random byte. A
step is a cycle with free inputs, and its instruction runs as `exec` of it. Three things in it are the MODEL's choice (each DESIGN
CHOICE): the counter `inputs`, to which the free inputs of a step are applied (log 1); that a frozen cycle leaves it alone as well
(log 7); and that `exec`, which takes no input, reads the free random byte at that counter (log 2). -/
def Obligations.AStepRunsTheDecodedInstruction : Prop :=
  (∀ (keysIn : BitVec 16) (rndIn : Byte) (s : State), s.fault ≠ none → cycle keysIn rndIn s = .next s) ∧
  (∀ (keysIn : BitVec 16) (rndIn : Byte) (s : State), s.fault = none → 0x0FFE < s.pc.toNat →
    cycle keysIn rndIn s =
      .next { s with key := keysIn, inputs := s.inputs + 1, fault := some ⟨.fetchRange, s.pc⟩,
                     dt := if s.dt = 0 then 0 else s.dt - 1, st := if s.st = 0 then 0 else s.st - 1 }) ∧
  (∀ (keysIn : BitVec 16) (rndIn : Byte) (s : State), s.fault = none → s.pc.toNat ≤ 0x0FFE →
    cycle keysIn rndIn s =
      execWith rndIn (decode (s.readMem s.pc.toNat ++ s.readMem (s.pc.toNat + 1)))
        { s with key := keysIn, inputs := s.inputs + 1,
                 dt := if s.dt = 0 then 0 else s.dt - 1, st := if s.st = 0 then 0 else s.st - 1 }) ∧
  (∀ s : State, Sys2Proof.Machine.step s = cycle (Config.keysIn (s.inputs + 1)) (Config.rndIn (s.inputs + 1)) s) ∧
  (∀ s : State, s.fault = none → s.pc.toNat ≤ 0x0FFE →
    Sys2Proof.Machine.step s =
      exec (decode (s.readMem s.pc.toNat ++ s.readMem (s.pc.toNat + 1)))
        { s with key := Config.keysIn (s.inputs + 1), inputs := s.inputs + 1,
                 dt := if s.dt = 0 then 0 else s.dt - 1, st := if s.st = 0 then 0 else s.st - 1 })

/-- R178: while FAULT is not none the core is frozen: no cycle, and no run of cycles with any inputs, changes anything. -/
def Obligations.AFaultedCoreIsFrozen : Prop :=
  ∀ (s : State) (f : FaultRecord), s.fault = some f →
    Sys2Proof.Machine.step s = .next s ∧ ∀ ins : List (BitVec 16 × Byte), runCycles ins s = .next s

/-- R171 (the spec's decision D6): no word is fetched exactly when `pc > 0x0FFE`; such a cycle raises FETCH_RANGE with pc, keeps the key load
and the timer counts of its steps 1 and 2, and changes nothing else; pc never wraps. -/
def Obligations.FetchBeyondMemoryFaults : Prop :=
  (∀ s : State, s.fetch = none ↔ 0x0FFE < s.pc.toNat) ∧
  ∀ (keysIn : BitVec 16) (rndIn : Byte) (s : State), s.fault = none → 0x0FFE < s.pc.toNat →
    ∃ t, cycle keysIn rndIn s = .next t ∧ t.fault = some ⟨.fetchRange, s.pc⟩ ∧ t.pc = s.pc ∧ t.key = keysIn ∧
      t.dt.toNat = s.dt.toNat - 1 ∧ t.st.toNat = s.st.toNat - 1 ∧
      KeepsAllBut (fun p => p ∈ [.fault, .dt, .st, .inputs] ∨ ∃ k, p = .key k) s t

/-- Every cycle and every step answers a next state: the machine has no halt and nothing is refused (70_reset_and_hazards.md R206, 30_encoding.md R80). -/
def Obligations.EveryCycleAnswersANextState : Prop :=
  (∀ (keysIn : BitVec 16) (rndIn : Byte) (s : State), ∃ t, cycle keysIn rndIn s = .next t) ∧
  (∀ s : State, ∃ t, Sys2Proof.Machine.step s = .next t)

/-- R183: in every cycle of a core that is not frozen, whatever the instruction, for unmatched words, on every retry of wait-key and in
a cycle that raises a fault, each timer counts down by one with a floor at zero, unless this very instruction writes it. -/
def Obligations.TimersCountDownInEveryCycle : Prop :=
  ∀ (keysIn : BitVec 16) (rndIn : Byte) (s t : State), s.fault = none → cycle keysIn rndIn s = .next t →
    ((∀ x, nextInstr s ≠ some (.setDelay x)) → t.dt.toNat = s.dt.toNat - 1) ∧
    ((∀ x, nextInstr s ≠ some (.setSound x)) → t.st.toNat = s.st.toNat - 1)

/-- What R30 and R42 say of one cycle: the key latch is fully replaced by `keys_in` in every cycle of a core that is not frozen; only wait-key then clears bits of it. -/
def Obligations.KeyLatchIsReplacedEveryCycle : Prop :=
  ∀ (keysIn : BitVec 16) (rndIn : Byte) (s t : State), s.fault = none → cycle keysIn rndIn s = .next t →
    ((∀ x, nextInstr s ≠ some (.waitKey x)) → t.key = keysIn) ∧
    (∀ k, t.keyHeld k = true → keysIn.getLsbD k = true)

/-- What R43 says of the cycles that do not use it: `rnd_in` is ignored by every cycle whose instruction is not random: two cycles that differ
in it alone end in the same state. -/
def Obligations.RandomByteReachesOnlyRandom : Prop :=
  ∀ (keysIn : BitVec 16) (r1 r2 : Byte) (s t1 t2 : State), (∀ x kk, nextInstr s ≠ some (.random x kk)) →
    cycle keysIn r1 s = .next t1 → cycle keysIn r2 s = .next t2 → t1 = t2

/-- What follows from R23 and the control-flow rules: in one cycle pc stays, moves by 2 or by 4, or goes to the absolute target of a jump, a call, a jump-offset or a return. -/
def Obligations.PcMovesOnlyByTheFourDirectives : Prop :=
  ∀ (keysIn : BitVec 16) (rndIn : Byte) (s t : State), cycle keysIn rndIn s = .next t →
    t.pc = s.pc ∨ t.pc = s.pc + 2 ∨ t.pc = s.pc + 4 ∨
    (∃ nnn, nextInstr s = some (.jump nnn) ∧ t.pc = nnn.setWidth 16) ∨
    (∃ nnn, nextInstr s = some (.call nnn) ∧ t.pc = nnn.setWidth 16) ∨
    (∃ nnn, nextInstr s = some (.jumpOffset nnn) ∧ t.pc = nnn.setWidth 16 + (s.readV V0).setWidth 16) ∨
    (nextInstr s = some .ret ∧ ∃ k : Fin 16, k.val + 1 = s.sp.val ∧ t.pc = s.stack[k.val])

/-- Who writes what, over one cycle: I only load-index, add-index and font-address (10_state.md R26); SP and STACK only call and return
(R27); a pixel only clear-screen and draw (R31); memory only store-bcd and store-regs (R32). -/
def Obligations.OnlyTheNamedInstructionsWriteEachUnit : Prop :=
  ∀ (keysIn : BitVec 16) (rndIn : Byte) (s t : State), cycle keysIn rndIn s = .next t →
    (t.i ≠ s.i → (∃ nnn, nextInstr s = some (.loadIndex nnn)) ∨ (∃ x, nextInstr s = some (.addIndex x)) ∨
      ∃ x, nextInstr s = some (.fontAddress x)) ∧
    (t.sp ≠ s.sp → (∃ nnn, nextInstr s = some (.call nnn)) ∨ nextInstr s = some .ret) ∧
    (t.stack ≠ s.stack → ∃ nnn, nextInstr s = some (.call nnn)) ∧
    (t.fb ≠ s.fb → nextInstr s = some .clearScreen ∨ ∃ x y n, nextInstr s = some (.draw x y n)) ∧
    ((∃ a, t.readMem a ≠ s.readMem a) →
      (∃ x, nextInstr s = some (.storeBcd x)) ∨ ∃ x, nextInstr s = some (.storeRegs x))

/-! ### Faults -/

/-- R170, R174, R175: an instruction raises a fault exactly when the table of R170 says so, with that cause and information word; the fault latch
is then the only thing it changes; where the table names no fault the instruction completes and leaves the latch alone; over a whole
cycle the latch ends as the fetch and the table say; and the causes have the codes of R170. -/
def Obligations.FaultsAreExactlyTheTablesAndPrecise : Prop :=
  (∀ (i : Instr) (s : State),
    (∀ f, faultOf i s = some f → exec i s = .next { s with fault := some f }) ∧
    (faultOf i s = none → ∃ t, exec i s = .next t ∧ t.fault = s.fault)) ∧
  (∀ (keysIn : BitVec 16) (rndIn : Byte) (s : State), s.fault = none →
    ∃ t, cycle keysIn rndIn s = .next t ∧ t.fault = faultNow s) ∧
  (FaultCause.fetchRange.code = 1 ∧ FaultCause.stackOverflow.code = 2 ∧ FaultCause.stackUnderflow.code = 3 ∧
    FaultCause.dataRange.code = 4 ∧ FaultCause.keyRange.code = 5)

/-- R176 over a whole cycle: when the fetch or the fetched instruction raises a fault, the cycle keeps its key load and its timer counts,
latches the fault, and changes nothing else; pc still holds the address of the faulting instruction; from the next cycle on the core is
frozen. -/
def Obligations.AFaultingCycleKeepsOnlyItsFirstTwoSteps : Prop :=
  ∀ (keysIn : BitVec 16) (rndIn : Byte) (s : State) (f : FaultRecord), s.fault = none → faultNow s = some f →
    ∃ t, cycle keysIn rndIn s = .next t ∧ t.fault = some f ∧ t.key = keysIn ∧
      t.dt.toNat = s.dt.toNat - 1 ∧ t.st.toNat = s.st.toNat - 1 ∧
      KeepsAllBut (fun p => p ∈ [.fault, .dt, .st, .inputs] ∨ ∃ k, p = .key k) s t ∧
      ∀ ins : List (BitVec 16 × Byte), runCycles ins t = .next t

/-! ### Control flow -/

/-- R92: jump sets pc to NNN and changes nothing else. -/
def Obligations.JumpGoesToTheAddress : Prop :=
  ∀ (nnn : Addr12) (s : State), ∃ t, exec (.jump nnn) s = .next t ∧
    t.pc.toNat = nnn.toNat ∧ KeepsAllButList [.pc] s t

/-- R98: jump-offset sets pc to NNN + V0, unreduced and without wrap, always with V0, and changes nothing else. -/
def Obligations.JumpOffsetAddsV0 : Prop :=
  ∀ (nnn : Addr12) (s : State), ∃ t, exec (.jumpOffset nnn) s = .next t ∧
    t.pc.toNat = nnn.toNat + (s.readV V0).toNat ∧ KeepsAllButList [.pc] s t

/-- R93, R172: call pushes the address after itself and jumps; with all 16 entries in use it raises STACK_OVERFLOW and changes nothing else
(the overflow is the spec's decision D4, the pushed value D10). -/
def Obligations.CallPushesTheReturnAddress : Prop :=
  ∀ (nnn : Addr12) (s : State),
    (∀ k : Fin 16, s.sp.val = k.val → ∃ t, exec (.call nnn) s = .next t ∧
      t.stack[k.val] = s.pc + 2 ∧ t.sp.val = k.val + 1 ∧ t.pc.toNat = nnn.toNat ∧
      KeepsAllButList [.pc, .sp, .stack k] s t) ∧
    (s.sp.val = 16 → ∃ t, exec (.call nnn) s = .next t ∧
      t.fault = some ⟨.stackOverflow, s.pc⟩ ∧ KeepsAllButList [.fault] s t)

/-- R91, R173: return frees the newest entry and goes exactly to the address it holds, the entry keeping its value; with no entry in use it
raises STACK_UNDERFLOW and changes nothing else (decision D5). -/
def Obligations.ReturnGoesToTheNewestEntry : Prop :=
  ∀ s : State,
    (∀ k : Fin 16, s.sp.val = k.val + 1 → ∃ t, exec .ret s = .next t ∧
      t.pc = s.stack[k.val] ∧ t.sp.val = k.val ∧ KeepsAllButList [.pc, .sp] s t) ∧
    (s.sp.val = 0 → ∃ t, exec .ret s = .next t ∧
      t.fault = some ⟨.stackUnderflow, s.pc⟩ ∧ KeepsAllButList [.fault] s t)

/-- R99 (the spec's own derivation from R91 and R93): a return that executes one level above the call, with the call's entry not overwritten,
comes back to the instruction after the call and restores SP. -/
def Obligations.ReturnPairsWithItsCall : Prop :=
  ∀ (nnn : Addr12) (s t u : State) (k : Fin 16), s.sp.val = k.val → exec (.call nnn) s = .next t →
    u.sp.val = k.val + 1 → u.stack[k.val] = t.stack[k.val] →
    ∃ w, exec .ret u = .next w ∧ w.pc = s.pc + 2 ∧ w.sp = s.sp ∧ KeepsAllButList [.pc, .sp] u w

/-- R94, R95: the skips on an immediate compare two unsigned bytes, move pc by 4 or by 2, and change nothing else. -/
def Obligations.ImmediateSkipsCompareAndMovePc : Prop :=
  ∀ (x : Reg) (kk : Byte) (s : State),
    (∃ t, exec (.skipEqImm x kk) s = .next t ∧ KeepsAllButList [.pc] s t ∧
      ((s.readV x).toNat = kk.toNat → t.pc = s.pc + 4) ∧ ((s.readV x).toNat ≠ kk.toNat → t.pc = s.pc + 2)) ∧
    (∃ t, exec (.skipNeImm x kk) s = .next t ∧ KeepsAllButList [.pc] s t ∧
      ((s.readV x).toNat ≠ kk.toNat → t.pc = s.pc + 4) ∧ ((s.readV x).toNat = kk.toNat → t.pc = s.pc + 2))

/-- R96, R97: the skips on two registers compare their contents, move pc by 4 or by 2, and change nothing else; with X = Y the first is always
taken and the second never. -/
def Obligations.RegisterSkipsCompareAndMovePc : Prop :=
  ∀ (x y : Reg) (s : State),
    (∃ t, exec (.skipEqReg x y) s = .next t ∧ KeepsAllButList [.pc] s t ∧
      ((s.readV x).toNat = (s.readV y).toNat → t.pc = s.pc + 4) ∧
      ((s.readV x).toNat ≠ (s.readV y).toNat → t.pc = s.pc + 2) ∧ (x = y → t.pc = s.pc + 4)) ∧
    (∃ t, exec (.skipNeReg x y) s = .next t ∧ KeepsAllButList [.pc] s t ∧
      ((s.readV x).toNat ≠ (s.readV y).toNat → t.pc = s.pc + 4) ∧
      ((s.readV x).toNat = (s.readV y).toNat → t.pc = s.pc + 2) ∧ (x = y → t.pc = s.pc + 2))

/-- R80: an unmatched word changes nothing but pc, which advances by one instruction width; its cycle still loads the key latch and counts the
timers down, and records nothing. -/
def Obligations.UnmatchedWordsOnlyAdvance : Prop :=
  (∀ (w : Word) (s : State), ∃ t, exec (.unmatched w) s = .next t ∧ t.pc = s.pc + 2 ∧ KeepsAllButList [.pc] s t) ∧
  ∀ (keysIn : BitVec 16) (rndIn : Byte) (w : Word) (s : State), s.fault = none → nextInstr s = some (.unmatched w) →
    ∃ t, cycle keysIn rndIn s = .next t ∧ t.pc = s.pc + 2 ∧ t.key = keysIn ∧
      t.dt.toNat = s.dt.toNat - 1 ∧ t.st.toNat = s.st.toNat - 1 ∧
      KeepsAllBut (fun p => p ∈ [.pc, .dt, .st, .inputs] ∨ ∃ k, p = .key k) s t

/-! ### Registers and ALU -/

/-- R111, R112, R113: the moves and the wrapping immediate add; no flag is written (VF changes only as the destination itself). -/
def Obligations.MovesAndImmediateAdd : Prop :=
  ∀ (x y : Reg) (kk : Byte) (s : State),
    (∃ t, exec (.loadImm x kk) s = .next t ∧ t.readV x = kk ∧ t.pc = s.pc + 2 ∧ KeepsAllButList [.pc, .v x] s t) ∧
    (∃ t, exec (.addImm x kk) s = .next t ∧ (t.readV x).toNat = ((s.readV x).toNat + kk.toNat) % 256 ∧
      t.pc = s.pc + 2 ∧ KeepsAllButList [.pc, .v x] s t) ∧
    (∃ t, exec (.loadReg x y) s = .next t ∧ t.readV x = s.readV y ∧ t.pc = s.pc + 2 ∧ KeepsAllButList [.pc, .v x] s t)

/-- R114, R115, R116: or, and, xor, bit by bit; no flag is written. -/
def Obligations.BitwiseLogicWritesNoFlag : Prop :=
  ∀ (x y : Reg) (s : State),
    (∃ t, exec (.orReg x y) s = .next t ∧
      (∀ k, (t.readV x).getLsbD k = ((s.readV x).getLsbD k || (s.readV y).getLsbD k)) ∧
      t.pc = s.pc + 2 ∧ KeepsAllButList [.pc, .v x] s t) ∧
    (∃ t, exec (.andReg x y) s = .next t ∧
      (∀ k, (t.readV x).getLsbD k = ((s.readV x).getLsbD k && (s.readV y).getLsbD k)) ∧
      t.pc = s.pc + 2 ∧ KeepsAllButList [.pc, .v x] s t) ∧
    (∃ t, exec (.xorReg x y) s = .next t ∧
      (∀ k, (t.readV x).getLsbD k = ((s.readV x).getLsbD k ^^ (s.readV y).getLsbD k)) ∧
      t.pc = s.pc + 2 ∧ KeepsAllButList [.pc, .v x] s t)

/-- R117: add-reg leaves the low byte of the sum in Vx and the carry in VF, from the operands as they stood; with X = 15 the flag is what
VF holds (decision D8). -/
def Obligations.AddRegLeavesSumAndCarry : Prop :=
  ∀ (x y : Reg) (s : State), ∃ t, exec (.addReg x y) s = .next t ∧
    (255 < (s.readV x).toNat + (s.readV y).toNat → t.readV VF = 1) ∧
    ((s.readV x).toNat + (s.readV y).toNat ≤ 255 → t.readV VF = 0) ∧
    (x ≠ VF → (t.readV x).toNat = ((s.readV x).toNat + (s.readV y).toNat) % 256) ∧
    t.pc = s.pc + 2 ∧ KeepsAllButList [.pc, .v x, .v VF] s t

/-- R118, R120: the two subtractions wrap modulo 256 and set VF by the STRICT comparison, 0 on equal operands; with X = 15 the flag is
what VF holds (decision D8). -/
def Obligations.SubtractionsSetVFStrictly : Prop :=
  ∀ (x y : Reg) (s : State),
    (∃ t, exec (.subReg x y) s = .next t ∧
      ((s.readV y).toNat < (s.readV x).toNat → t.readV VF = 1) ∧
      ((s.readV x).toNat ≤ (s.readV y).toNat → t.readV VF = 0) ∧
      (x ≠ VF → ((t.readV x).toNat : Int) = ((s.readV x).toNat - (s.readV y).toNat : Int) % 256) ∧
      t.pc = s.pc + 2 ∧ KeepsAllButList [.pc, .v x, .v VF] s t) ∧
    (∃ t, exec (.subnReg x y) s = .next t ∧
      ((s.readV x).toNat < (s.readV y).toNat → t.readV VF = 1) ∧
      ((s.readV y).toNat ≤ (s.readV x).toNat → t.readV VF = 0) ∧
      (x ≠ VF → ((t.readV x).toNat : Int) = ((s.readV y).toNat - (s.readV x).toNat : Int) % 256) ∧
      t.pc = s.pc + 2 ∧ KeepsAllButList [.pc, .v x, .v VF] s t)

/-- R119, R121: the shifts move Vx by one position in place with 0 shifted in, capture the bit shifted out in VF (also when X = 15), and
ignore Vy and the Y field. -/
def Obligations.ShiftsCaptureTheBitShiftedOut : Prop :=
  ∀ (x y : Reg) (s : State),
    (∃ t, exec (.shiftRight x y) s = .next t ∧
      (t.readV VF).toNat = (s.readV x).toNat % 2 ∧
      (x ≠ VF → (t.readV x).toNat = (s.readV x).toNat / 2) ∧
      t.pc = s.pc + 2 ∧ KeepsAllButList [.pc, .v x, .v VF] s t) ∧
    (∃ t, exec (.shiftLeft x y) s = .next t ∧
      (t.readV VF).toNat = (s.readV x).toNat / 128 ∧
      (x ≠ VF → (t.readV x).toNat = 2 * (s.readV x).toNat % 256) ∧
      t.pc = s.pc + 2 ∧ KeepsAllButList [.pc, .v x, .v VF] s t) ∧
    (∀ z : Reg, exec (.shiftRight x y) s = exec (.shiftRight x z) s ∧ exec (.shiftLeft x y) s = exec (.shiftLeft x z) s)

/-- R122: random leaves the cycle's random byte masked with KK in Vx, for every value of that byte, advances, writes no flag and changes nothing
else; and so it does in the cycle that fetches it. -/
def Obligations.RandomMasksTheInputByte : Prop :=
  (∀ (rndIn : Byte) (x : Reg) (kk : Byte) (s : State), ∃ t, execWith rndIn (.random x kk) s = .next t ∧
    t.readV x = rndIn &&& kk ∧ t.pc = s.pc + 2 ∧ KeepsAllButList [.pc, .v x] s t) ∧
  (∀ (keysIn : BitVec 16) (rndIn : Byte) (x : Reg) (kk : Byte) (s : State), s.fault = none →
    nextInstr s = some (.random x kk) → ∃ t, cycle keysIn rndIn s = .next t ∧ t.readV x = rndIn &&& kk ∧ t.pc = s.pc + 2)

/-- What R21 says of who writes VF: each of the six flag writers leaves 0 or 1 in VF whenever it completes; of the others only those of R21's list with X = 15 write VF
at all. -/
def Obligations.VFIsWrittenOnlyAsR21Says : Prop :=
  ∀ (i : Instr) (s t : State), exec i s = .next t →
    (isFlagWriter i = true → faultOf i s = none → t.readV VF = 0 ∨ t.readV VF = 1) ∧
    (isFlagWriter i = false → writesVFAsOrdinary i = false → t.readV VF = s.readV VF)

/-! ### Display -/

/-- R130: clear-screen leaves every pixel unlit, writes no flag and changes nothing else. -/
def Obligations.ClearScreenUnlightsEveryPixel : Prop :=
  ∀ s : State, ∃ t, exec .clearScreen s = .next t ∧ (∀ row col, t.fb.pixel row col = false) ∧ t.pc = s.pc + 2 ∧
    KeepsAllBut (fun p => p = .pc ∨ ∃ row col, p = .pixel row col) s t

/-- R131: where its last byte lies in memory (and always when N = 0) draw flips exactly the pixels under the sprite's
1-bits, both axes wrapping, sets VF to 1 exactly when one of them was lit, and changes nothing else; otherwise it raises DATA_RANGE
with I and changes nothing else. The bit order is the spec's decision D14, the range policy D3. -/
def Obligations.DrawXorsTheSpriteAndReportsCollision : Prop :=
  ∀ (x y : Reg) (n : Nibble) (s : State),
    (n.toNat = 0 ∨ s.i.toNat + (n.toNat - 1) ≤ 0x0FFF → ∃ t, exec (.draw x y n) s = .next t ∧
      (∀ row col, SpriteCovers s x y n row col → t.fb.pixel row col = !s.fb.pixel row col) ∧
      ((∃ row col, SpriteCovers s x y n row col ∧ s.fb.pixel row col = true) → t.readV VF = 1) ∧
      ((¬ ∃ row col, SpriteCovers s x y n row col ∧ s.fb.pixel row col = true) → t.readV VF = 0) ∧
      t.pc = s.pc + 2 ∧
      KeepsAllBut (fun p => p = .pc ∨ p = .v VF ∨ ∃ row col, SpriteCovers s x y n row col ∧ p = .pixel row col) s t) ∧
    (1 ≤ n.toNat → 0x0FFF < s.i.toNat + (n.toNat - 1) → ∃ t, exec (.draw x y n) s = .next t ∧
      t.fault = some ⟨.dataRange, s.i⟩ ∧ KeepsAllButList [.fault] s t)

/-- R132 (the spec's own derivation from R131): drawing the same sprite twice at the same place, with X and Y not 15, restores the framebuffer
exactly; the second draw reports 1 exactly when one of the sprite's 1-bits lies over a pixel that was unlit before the first. -/
def Obligations.DrawingTwiceRestoresTheFramebuffer : Prop :=
  ∀ (x y : Reg) (n : Nibble) (s t u : State), x ≠ VF → y ≠ VF → faultOf (.draw x y n) s = none →
    exec (.draw x y n) s = .next t → exec (.draw x y n) t = .next u →
    (∀ row col, u.fb.pixel row col = s.fb.pixel row col) ∧
    (u.readV VF = 1 ↔ ∃ row col, SpriteCovers s x y n row col ∧ s.fb.pixel row col = false)

/-! ### Index register, BCD and blocks -/

/-- R140, R141, R142: the three writers of I: NNN; the wrapping 16-bit sum with Vx; FONT_BASE plus five times the whole byte of Vx, without
wrap. No flag is written and memory is not accessed. -/
def Obligations.IndexRegisterWriters : Prop :=
  (∀ (nnn : Addr12) (s : State), ∃ t, exec (.loadIndex nnn) s = .next t ∧ t.i.toNat = nnn.toNat ∧
    t.pc = s.pc + 2 ∧ KeepsAllButList [.pc, .i] s t) ∧
  (∀ (x : Reg) (s : State), ∃ t, exec (.addIndex x) s = .next t ∧
    t.i.toNat = (s.i.toNat + (s.readV x).toNat) % 65536 ∧ t.pc = s.pc + 2 ∧ KeepsAllButList [.pc, .i] s t) ∧
  (∀ (x : Reg) (s : State), ∃ t, exec (.fontAddress x) s = .next t ∧
    t.i.toNat = Config.fontBase.val + 5 * (s.readV x).toNat ∧ t.pc = s.pc + 2 ∧ KeepsAllButList [.pc, .i] s t)

/-- R143: store-bcd writes the three decimal digits of Vx at I, I + 1 and I + 2 and nothing else; when I + 2 lies beyond 0x0FFF it raises
DATA_RANGE with I and writes no byte (decision D3). -/
def Obligations.StoreBcdWritesTheThreeDigits : Prop :=
  ∀ (x : Reg) (s : State),
    (s.i.toNat + 2 ≤ 0x0FFF → ∃ t, exec (.storeBcd x) s = .next t ∧
      (t.readMem s.i.toNat).toNat = (s.readV x).toNat / 100 ∧
      (t.readMem (s.i.toNat + 1)).toNat = (s.readV x).toNat / 10 % 10 ∧
      (t.readMem (s.i.toNat + 2)).toNat = (s.readV x).toNat % 10 ∧
      t.pc = s.pc + 2 ∧
      KeepsAllBut (fun p => p = .pc ∨ ∃ a, s.i.toNat ≤ a ∧ a < s.i.toNat + 3 ∧ p = .mem a) s t) ∧
    (0x0FFF < s.i.toNat + 2 → ∃ t, exec (.storeBcd x) s = .next t ∧
      t.fault = some ⟨.dataRange, s.i⟩ ∧ KeepsAllButList [.fault] s t)

/-- R144: store-regs writes V0 to VX to I upward, X + 1 bytes, and nothing else (I is unchanged); when I + X lies beyond 0x0FFF it raises
DATA_RANGE with I and writes no byte (decision D3). -/
def Obligations.StoreRegsWritesTheBlock : Prop :=
  ∀ (x : Reg) (s : State),
    (s.i.toNat + x.toNat ≤ 0x0FFF → ∃ t, exec (.storeRegs x) s = .next t ∧
      (∀ r : Reg, r.toNat ≤ x.toNat → t.readMem (s.i.toNat + r.toNat) = s.readV r) ∧ t.pc = s.pc + 2 ∧
      KeepsAllBut (fun p => p = .pc ∨ ∃ a, s.i.toNat ≤ a ∧ a < s.i.toNat + (x.toNat + 1) ∧ p = .mem a) s t) ∧
    (0x0FFF < s.i.toNat + x.toNat → ∃ t, exec (.storeRegs x) s = .next t ∧
      t.fault = some ⟨.dataRange, s.i⟩ ∧ KeepsAllButList [.fault] s t)

/-- R145: load-regs reads V0 to VX from I upward, VF as an ordinary register, and changes nothing else (I and the registers above X are
unchanged); when I + X lies beyond 0x0FFF it raises DATA_RANGE with I and writes no register (decision D3). -/
def Obligations.LoadRegsReadsTheBlock : Prop :=
  ∀ (x : Reg) (s : State),
    (s.i.toNat + x.toNat ≤ 0x0FFF → ∃ t, exec (.loadRegs x) s = .next t ∧
      (∀ r : Reg, r.toNat ≤ x.toNat → t.readV r = s.readMem (s.i.toNat + r.toNat)) ∧ t.pc = s.pc + 2 ∧
      KeepsAllBut (fun p => p = .pc ∨ ∃ r : Reg, r.toNat ≤ x.toNat ∧ p = .v r) s t) ∧
    (0x0FFF < s.i.toNat + x.toNat → ∃ t, exec (.loadRegs x) s = .next t ∧
      t.fault = some ⟨.dataRange, s.i⟩ ∧ KeepsAllButList [.fault] s t)

/-- R146 (the spec's own derivation from R143, R144 and R145): what store-regs stored, load-regs reproduces from any state with the same I and
the same bytes there; and store-bcd followed by load-regs with X = 2 leaves the digits in V0, V1 and V2. -/
def Obligations.StoredBlocksLoadBack : Prop :=
  ∀ (x : Reg) (s t u : State), u.i = s.i → (∀ a, u.readMem a = t.readMem a) →
    (s.i.toNat + x.toNat ≤ 0x0FFF → exec (.storeRegs x) s = .next t →
      ∃ w, exec (.loadRegs x) u = .next w ∧ ∀ r : Reg, r.toNat ≤ x.toNat → w.readV r = s.readV r) ∧
    (s.i.toNat + 2 ≤ 0x0FFF → exec (.storeBcd x) s = .next t →
      ∃ w, exec (.loadRegs 2) u = .next w ∧ (w.readV 0).toNat = (s.readV x).toNat / 100 ∧
        (w.readV 1).toNat = (s.readV x).toNat / 10 % 10 ∧ (w.readV 2).toNat = (s.readV x).toNat % 10)

/-- R61, R52 (their derived parts): code stored by store-regs over the next instruction is what the next fetch reads, the lower-numbered register
being the more significant byte. -/
def Obligations.AStoreIsSeenByTheNextFetch : Prop :=
  ∀ (x r q : Reg) (s : State), s.i.toNat + x.toNat ≤ 0x0FFF → q.toNat ≤ x.toNat → q.toNat = r.toNat + 1 →
    (s.pc + 2).toNat = s.i.toNat + r.toNat →
    ∃ t, exec (.storeRegs x) s = .next t ∧ t.fetch = some (s.readV r ++ s.readV q)

/-! ### Timers and keys -/

/-- R155, R156, R157: get-delay reads DT, set-delay and set-sound write DT and ST with Vx, exactly; nothing else changes. `sound_active` is
then whether the value written is not 0 (R44, R185). -/
def Obligations.TimerInstructionsMoveTheTimers : Prop :=
  ∀ (x : Reg) (s : State),
    (∃ t, exec (.getDelay x) s = .next t ∧ t.readV x = s.dt ∧ t.pc = s.pc + 2 ∧ KeepsAllButList [.pc, .v x] s t) ∧
    (∃ t, exec (.setDelay x) s = .next t ∧ t.dt = s.readV x ∧ t.pc = s.pc + 2 ∧ KeepsAllButList [.pc, .dt] s t) ∧
    (∃ t, exec (.setSound x) s = .next t ∧ t.st = s.readV x ∧ t.pc = s.pc + 2 ∧ KeepsAllButList [.pc, .st] s t ∧
      (t.soundActive = true ↔ s.readV x ≠ 0))

/-- R184, R157 (derived parts): along any run in which no cycle starts frozen, DT with no set-delay and ST with no set-sound fall by one a cycle
and stop at 0. -/
def Obligations.TimersRunDownToZero : Prop :=
  ∀ (ins : List (BitVec 16 × Byte)) (s t : State), runCycles ins s = .next t →
    (NoSetDelay ins s → t.dt.toNat = s.dt.toNat - ins.length) ∧
    (NoSetSound ins s → t.st.toNat = s.st.toNat - ins.length)

/-- R158, R159: the key skips test the level of the key whose number is the content of Vx and change nothing but pc; with Vx above 15 they
raise KEY_RANGE with that value and change nothing else (decision D9). -/
def Obligations.KeySkipsTestTheKeyVxNames : Prop :=
  ∀ (x : Reg) (s : State),
    ((s.readV x).toNat ≤ 15 →
      (∃ t, exec (.skipKeyPressed x) s = .next t ∧ KeepsAllButList [.pc] s t ∧
        (s.keyHeld (s.readV x).toNat = true → t.pc = s.pc + 4) ∧
        (s.keyHeld (s.readV x).toNat = false → t.pc = s.pc + 2)) ∧
      (∃ t, exec (.skipKeyNotPressed x) s = .next t ∧ KeepsAllButList [.pc] s t ∧
        (s.keyHeld (s.readV x).toNat = false → t.pc = s.pc + 4) ∧
        (s.keyHeld (s.readV x).toNat = true → t.pc = s.pc + 2))) ∧
    (15 < (s.readV x).toNat → ∃ t, exec (.skipKeyPressed x) s = .next t ∧ exec (.skipKeyNotPressed x) s = .next t ∧
      t.fault = some ⟨.keyRange, (s.readV x).setWidth 16⟩ ∧ KeepsAllButList [.fault] s t)

/-- R160: with no key held wait-key changes nothing at all, pc included; otherwise it clears the least held key's bit, leaves that key's
number in Vx, advances, and changes nothing else. It never faults. -/
def Obligations.WaitKeyTakesTheLeastHeldKey : Prop :=
  ∀ (x : Reg) (s : State),
    ((∀ k : Fin 16, s.keyHeld k.val = false) → exec (.waitKey x) s = .next s) ∧
    (∀ k : Fin 16, s.keyHeld k.val = true → (∀ j : Fin 16, j.val < k.val → s.keyHeld j.val = false) →
      ∃ t, exec (.waitKey x) s = .next t ∧ (t.readV x).toNat = k.val ∧ t.keyHeld k.val = false ∧
        t.pc = s.pc + 2 ∧ KeepsAllButList [.pc, .v x, .key k] s t)

/-- R161 (the spec's own derivation from R160): while the host holds no key, however many cycles run, pc stays at the wait-key and only DT, ST and
KEY change (and the model's own fields); in the first cycle with a key, Vx takes the least held key's number and pc advances. -/
def Obligations.WaitKeyWaitsForAKey : Prop :=
  ∀ (x : Reg) (s : State) (rnds : List Byte), s.fault = none → nextInstr s = some (.waitKey x) →
    ∃ t, runCycles (rnds.map fun r => (0#16, r)) s = .next t ∧ nextInstr t = some (.waitKey x) ∧
      KeepsAllBut (fun p => p ∈ [.dt, .st, .inputs] ∨ ∃ k, p = .key k) s t ∧
      ∀ (keysIn : BitVec 16) (rndIn : Byte) (k : Fin 16), keysIn.getLsbD k.val = true →
        (∀ j, j < k.val → keysIn.getLsbD j = false) →
        ∃ u, cycle keysIn rndIn t = .next u ∧ u.pc = s.pc + 2 ∧ (u.readV x).toNat = k.val

/-! ### exec and the random byte -/

/-- What R43 says of an instruction, in the model's terms: only random uses the random byte of its cycle; `exec`, which takes no input, is an
instruction's execution with the free byte of the current cycle; so in `exec` random leaves that free byte, masked with KK, in Vx. That
`exec` reads the byte at the counter `inputs` is the MODEL's choice (DESIGN CHOICE, logs 1 and 2); the byte is a free value, so the
statement holds for every value of it. -/
def Obligations.ExecTakesTheFreeRandomByte : Prop :=
  (∀ (i : Instr) (s : State), execWith (Config.rndIn s.inputs) i s = exec i s) ∧
  (∀ (rndIn : Byte) (i : Instr) (s : State), (∀ x kk, i ≠ .random x kk) → execWith rndIn i s = exec i s) ∧
  (∀ (x : Reg) (kk : Byte) (s : State), ∃ t, exec (.random x kk) s = .next t ∧
    t.readV x = Config.rndIn s.inputs &&& kk ∧ t.pc = s.pc + 2 ∧ KeepsAllButList [.pc, .v x] s t)
end

