-- ==== Sys2Proof/Laws/Encoding.lean ====
section
/-! SUPPORT. The fields of a word and the word of its fields (spec/30_encoding.md rule R72): each field of a word put together is the field
put in, and a word is its fields put together. -/

namespace Sys2Proof

theorem getLsbD_joinYN (y n : Nibble) (i : Nat) :
    (joinYN y n).getLsbD i = if i < 4 then n.getLsbD i else y.getLsbD (i - 4) :=
  BitVec.getLsbD_append (x := y) (y := n)

theorem getLsbD_joinXKK (x : Reg) (kk : Byte) (i : Nat) :
    (joinXKK x kk).getLsbD i = if i < 8 then kk.getLsbD i else x.getLsbD (i - 8) :=
  BitVec.getLsbD_append (x := x) (y := kk)

theorem getLsbD_wordNNN (c : Nibble) (nnn : Addr12) (i : Nat) :
    (wordNNN c nnn).getLsbD i = if i < 12 then nnn.getLsbD i else c.getLsbD (i - 12) :=
  BitVec.getLsbD_append (x := c) (y := nnn)

/-! ### A field of a word put together -/

@[simp] theorem fieldClass_wordNNN (c : Nibble) (nnn : Addr12) : fieldClass (wordNNN c nnn) = c := by
  apply BitVec.eq_of_getLsbD_eq
  intro i hi
  simp [fieldClass, getLsbD_wordNNN, hi]

@[simp] theorem fieldNNN_wordNNN (c : Nibble) (nnn : Addr12) : fieldNNN (wordNNN c nnn) = nnn := by
  apply BitVec.eq_of_getLsbD_eq
  intro i hi
  simp [fieldNNN, getLsbD_wordNNN, hi]

@[simp] theorem fieldClass_wordXKK (c : Nibble) (x : Reg) (kk : Byte) : fieldClass (wordXKK c x kk) = c :=
  fieldClass_wordNNN c _

@[simp] theorem fieldX_wordXKK (c : Nibble) (x : Reg) (kk : Byte) : fieldX (wordXKK c x kk) = x := by
  apply BitVec.eq_of_getLsbD_eq
  intro i hi
  have : 8 + i < 12 := by omega
  simp only [fieldX, BitVec.getLsbD_extractLsb', wordXKK, getLsbD_wordNNN, getLsbD_joinXKK]
  simp [hi, this]

@[simp] theorem fieldKK_wordXKK (c : Nibble) (x : Reg) (kk : Byte) : fieldKK (wordXKK c x kk) = kk := by
  apply BitVec.eq_of_getLsbD_eq
  intro i hi
  have : i < 12 := by omega
  simp only [fieldKK, BitVec.getLsbD_extractLsb', wordXKK, getLsbD_wordNNN, getLsbD_joinXKK]
  simp [hi, this]

@[simp] theorem fieldClass_wordXYN (c : Nibble) (x y : Reg) (n : Nibble) : fieldClass (wordXYN c x y n) = c :=
  fieldClass_wordNNN c _

@[simp] theorem fieldX_wordXYN (c : Nibble) (x y : Reg) (n : Nibble) : fieldX (wordXYN c x y n) = x :=
  fieldX_wordXKK c x _

@[simp] theorem fieldY_wordXYN (c : Nibble) (x y : Reg) (n : Nibble) : fieldY (wordXYN c x y n) = y := by
  apply BitVec.eq_of_getLsbD_eq
  intro i hi
  have h1 : 4 + i < 12 := by omega
  have h2 : 4 + i < 8 := by omega
  simp only [fieldY, BitVec.getLsbD_extractLsb', wordXYN, wordXKK, getLsbD_wordNNN, getLsbD_joinXKK, getLsbD_joinYN]
  simp [hi, h1, h2]

@[simp] theorem fieldN_wordXYN (c : Nibble) (x y : Reg) (n : Nibble) : fieldN (wordXYN c x y n) = n := by
  apply BitVec.eq_of_getLsbD_eq
  intro i hi
  have h1 : i < 12 := by omega
  have h2 : i < 8 := by omega
  simp only [fieldN, BitVec.getLsbD_extractLsb', wordXYN, wordXKK, getLsbD_wordNNN, getLsbD_joinXKK, getLsbD_joinYN]
  simp [hi, h1, h2]

/-! ### A word is its fields put together -/

theorem joinYN_fields (w : Word) : joinYN (fieldY w) (fieldN w) = fieldKK w := by
  apply BitVec.eq_of_getLsbD_eq
  intro i hi
  simp only [getLsbD_joinYN, fieldY, fieldN, fieldKK, BitVec.getLsbD_extractLsb']
  by_cases h : i < 4
  · simp [h, hi]
  · have h1 : i - 4 < 4 := by omega
    have h2 : 4 + (i - 4) = i := by omega
    simp [h, h1, h2, hi]

theorem joinXKK_fields (w : Word) : joinXKK (fieldX w) (fieldKK w) = fieldNNN w := by
  apply BitVec.eq_of_getLsbD_eq
  intro i hi
  simp only [getLsbD_joinXKK, fieldX, fieldKK, fieldNNN, BitVec.getLsbD_extractLsb']
  by_cases h : i < 8
  · simp [h, hi]
  · have h1 : i - 8 < 4 := by omega
    have h2 : 8 + (i - 8) = i := by omega
    simp [h, h1, h2, hi]

theorem wordNNN_fields (w : Word) : wordNNN (fieldClass w) (fieldNNN w) = w := by
  apply BitVec.eq_of_getLsbD_eq
  intro i hi
  simp only [getLsbD_wordNNN, fieldClass, fieldNNN, BitVec.getLsbD_extractLsb']
  by_cases h : i < 12
  · simp [h]
  · have h1 : i - 12 < 4 := by omega
    have h2 : 12 + (i - 12) = i := by omega
    simp [h, h1, h2]

theorem wordXKK_fields (w : Word) : wordXKK (fieldClass w) (fieldX w) (fieldKK w) = w := by
  rw [wordXKK, joinXKK_fields, wordNNN_fields]

theorem wordXYN_fields (w : Word) : wordXYN (fieldClass w) (fieldX w) (fieldY w) (fieldN w) = w := by
  rw [wordXYN, joinYN_fields, wordXKK_fields]

/-! ### Masks and rows (R83) -/

theorem fieldY_wordXKK (c : Nibble) (x : Reg) (kk : Byte) : fieldY (wordXKK c x kk) = kk.extractLsb' 4 4 := by
  have e : fieldY (wordXKK c x kk) = (fieldKK (wordXKK c x kk)).extractLsb' 4 4 := by
    apply BitVec.eq_of_getLsbD_eq
    intro i hi
    simp [fieldY, fieldKK]
  rw [e, fieldKK_wordXKK]

theorem fieldN_wordXKK (c : Nibble) (x : Reg) (kk : Byte) : fieldN (wordXKK c x kk) = kk.extractLsb' 0 4 := by
  have e : fieldN (wordXKK c x kk) = (fieldKK (wordXKK c x kk)).extractLsb' 0 4 := by
    apply BitVec.eq_of_getLsbD_eq
    intro i hi
    simp [fieldN, fieldKK]
  rw [e, fieldKK_wordXKK]

/-- Words with the same four fields are equal. -/
theorem word_ext {u w : Word} (hc : fieldClass u = fieldClass w) (hx : fieldX u = fieldX w) (hy : fieldY u = fieldY w)
    (hn : fieldN u = fieldN w) : u = w := by
  rw [← wordXYN_fields u, ← wordXYN_fields w, hc, hx, hy, hn]

/-- A masked comparison is a masked comparison of each of the four fields. -/
theorem word_and_eq_iff (w m p : Word) : w &&& m = p ↔
    fieldClass w &&& fieldClass m = fieldClass p ∧ fieldX w &&& fieldX m = fieldX p ∧
    fieldY w &&& fieldY m = fieldY p ∧ fieldN w &&& fieldN m = fieldN p := by
  have hf : ∀ s l : Nat, (w &&& m).extractLsb' s l = w.extractLsb' s l &&& m.extractLsb' s l := fun s l => by
    apply BitVec.eq_of_getLsbD_eq; intro i hi; simp [hi]
  constructor
  · rintro rfl
    exact ⟨(hf ..).symm, (hf ..).symm, (hf ..).symm, (hf ..).symm⟩
  · rintro ⟨h1, h2, h3, h4⟩
    exact word_ext ((hf ..).trans h1) ((hf ..).trans h2) ((hf ..).trans h3) ((hf ..).trans h4)

/-- A row selects a word exactly when each masked field has the row's value. -/
theorem Row.selects_iff (r : Row) (w : Word) : r.selects w = true ↔
    fieldClass w &&& fieldClass r.mask = fieldClass r.pattern ∧ fieldX w &&& fieldX r.mask = fieldX r.pattern ∧
    fieldY w &&& fieldY r.mask = fieldY r.pattern ∧ fieldN w &&& fieldN r.mask = fieldN r.pattern := by
  rw [Row.selects, beq_iff_eq, word_and_eq_iff]

/-- The same as an equation of Booleans. -/
theorem Row.selects_eq (r : Row) (w : Word) : r.selects w =
    (decide (fieldClass w &&& fieldClass r.mask = fieldClass r.pattern) && decide (fieldX w &&& fieldX r.mask = fieldX r.pattern) &&
    decide (fieldY w &&& fieldY r.mask = fieldY r.pattern) && decide (fieldN w &&& fieldN r.mask = fieldN r.pattern)) := by
  rw [Bool.eq_iff_iff, Row.selects_iff]; simp [and_assoc]

/-! ### The two bytes of a word (R71) -/

@[simp] theorem wordOfBytes_bytes (w : Word) : wordOfBytes (highByte w) (lowByte w) = w := by
  apply BitVec.eq_of_getLsbD_eq
  intro i hi
  have e : (wordOfBytes (highByte w) (lowByte w)).getLsbD i =
      if i < 8 then (lowByte w).getLsbD i else (highByte w).getLsbD (i - 8) :=
    BitVec.getLsbD_append (x := highByte w) (y := lowByte w)
  rw [e]
  simp only [highByte, lowByte, BitVec.getLsbD_extractLsb']
  by_cases h : i < 8
  · simp [h]
  · have h1 : i - 8 < 8 := by omega
    have h2 : 8 + (i - 8) = i := by omega
    simp [h, h1, h2]

end Sys2Proof
end

