-- ==== Sys2Proof/Laws/State.lean ====
section
/-! SUPPORT. What each update of the state does to each field: one lemma per field, so that no later proof unfolds a record update
(refs: the state of spec/10_state.md section 1). -/

namespace Sys2Proof.Machine

variable (s : State)

/-! ### Writing a general register -/

@[simp] theorem State.writeV_v (r : Reg) (b : Byte) : (s.writeV r b).v = s.v.set r.toNat b r.isLt := rfl
@[simp] theorem State.writeV_i (r : Reg) (b : Byte) : (s.writeV r b).i = s.i := rfl
@[simp] theorem State.writeV_pc (r : Reg) (b : Byte) : (s.writeV r b).pc = s.pc := rfl
@[simp] theorem State.writeV_sp (r : Reg) (b : Byte) : (s.writeV r b).sp = s.sp := rfl
@[simp] theorem State.writeV_stack (r : Reg) (b : Byte) : (s.writeV r b).stack = s.stack := rfl
@[simp] theorem State.writeV_dt (r : Reg) (b : Byte) : (s.writeV r b).dt = s.dt := rfl
@[simp] theorem State.writeV_st (r : Reg) (b : Byte) : (s.writeV r b).st = s.st := rfl
@[simp] theorem State.writeV_key (r : Reg) (b : Byte) : (s.writeV r b).key = s.key := rfl
@[simp] theorem State.writeV_fb (r : Reg) (b : Byte) : (s.writeV r b).fb = s.fb := rfl
@[simp] theorem State.writeV_mem (r : Reg) (b : Byte) : (s.writeV r b).mem = s.mem := rfl
@[simp] theorem State.writeV_fault (r : Reg) (b : Byte) : (s.writeV r b).fault = s.fault := rfl
@[simp] theorem State.writeV_inputs (r : Reg) (b : Byte) : (s.writeV r b).inputs = s.inputs := rfl

/-! ### A result and its flag -/

@[simp] theorem State.writeResultFlag_i (x : Reg) (b : Byte) (f : Bool) : (s.writeResultFlag x b f).i = s.i := rfl
@[simp] theorem State.writeResultFlag_pc (x : Reg) (b : Byte) (f : Bool) : (s.writeResultFlag x b f).pc = s.pc := rfl
@[simp] theorem State.writeResultFlag_sp (x : Reg) (b : Byte) (f : Bool) : (s.writeResultFlag x b f).sp = s.sp := rfl
@[simp] theorem State.writeResultFlag_stack (x : Reg) (b : Byte) (f : Bool) : (s.writeResultFlag x b f).stack = s.stack := rfl
@[simp] theorem State.writeResultFlag_dt (x : Reg) (b : Byte) (f : Bool) : (s.writeResultFlag x b f).dt = s.dt := rfl
@[simp] theorem State.writeResultFlag_st (x : Reg) (b : Byte) (f : Bool) : (s.writeResultFlag x b f).st = s.st := rfl
@[simp] theorem State.writeResultFlag_key (x : Reg) (b : Byte) (f : Bool) : (s.writeResultFlag x b f).key = s.key := rfl
@[simp] theorem State.writeResultFlag_fb (x : Reg) (b : Byte) (f : Bool) : (s.writeResultFlag x b f).fb = s.fb := rfl
@[simp] theorem State.writeResultFlag_mem (x : Reg) (b : Byte) (f : Bool) : (s.writeResultFlag x b f).mem = s.mem := rfl
@[simp] theorem State.writeResultFlag_fault (x : Reg) (b : Byte) (f : Bool) : (s.writeResultFlag x b f).fault = s.fault := rfl
@[simp] theorem State.writeResultFlag_inputs (x : Reg) (b : Byte) (f : Bool) : (s.writeResultFlag x b f).inputs = s.inputs := rfl

/-! ### Applying a directive: pc alone changes (R23) -/

@[simp] theorem State.apply_v (d : Directive) : (s.apply d).v = s.v := by cases d <;> rfl
@[simp] theorem State.apply_i (d : Directive) : (s.apply d).i = s.i := by cases d <;> rfl
@[simp] theorem State.apply_sp (d : Directive) : (s.apply d).sp = s.sp := by cases d <;> rfl
@[simp] theorem State.apply_stack (d : Directive) : (s.apply d).stack = s.stack := by cases d <;> rfl
@[simp] theorem State.apply_dt (d : Directive) : (s.apply d).dt = s.dt := by cases d <;> rfl
@[simp] theorem State.apply_st (d : Directive) : (s.apply d).st = s.st := by cases d <;> rfl
@[simp] theorem State.apply_key (d : Directive) : (s.apply d).key = s.key := by cases d <;> rfl
@[simp] theorem State.apply_fb (d : Directive) : (s.apply d).fb = s.fb := by cases d <;> rfl
@[simp] theorem State.apply_mem (d : Directive) : (s.apply d).mem = s.mem := by cases d <;> rfl
@[simp] theorem State.apply_fault (d : Directive) : (s.apply d).fault = s.fault := by cases d <;> rfl
@[simp] theorem State.apply_inputs (d : Directive) : (s.apply d).inputs = s.inputs := by cases d <;> rfl
@[simp] theorem State.apply_next_pc : (s.apply .next).pc = s.pc + 2 := rfl
@[simp] theorem State.apply_skip_pc : (s.apply .skip).pc = s.pc + 4 := rfl
@[simp] theorem State.apply_jump_pc (a : Word) : (s.apply (.jump a)).pc = a := rfl
@[simp] theorem State.apply_again : s.apply .again = s := rfl

/-! ### Latching the inputs -/

@[simp] theorem State.latchInputs_v (k : BitVec 16) : (s.latchInputs k).v = s.v := rfl
@[simp] theorem State.latchInputs_i (k : BitVec 16) : (s.latchInputs k).i = s.i := rfl
@[simp] theorem State.latchInputs_pc (k : BitVec 16) : (s.latchInputs k).pc = s.pc := rfl
@[simp] theorem State.latchInputs_sp (k : BitVec 16) : (s.latchInputs k).sp = s.sp := rfl
@[simp] theorem State.latchInputs_stack (k : BitVec 16) : (s.latchInputs k).stack = s.stack := rfl
@[simp] theorem State.latchInputs_dt (k : BitVec 16) : (s.latchInputs k).dt = s.dt := rfl
@[simp] theorem State.latchInputs_st (k : BitVec 16) : (s.latchInputs k).st = s.st := rfl
@[simp] theorem State.latchInputs_key (k : BitVec 16) : (s.latchInputs k).key = k := rfl
@[simp] theorem State.latchInputs_fb (k : BitVec 16) : (s.latchInputs k).fb = s.fb := rfl
@[simp] theorem State.latchInputs_mem (k : BitVec 16) : (s.latchInputs k).mem = s.mem := rfl
@[simp] theorem State.latchInputs_fault (k : BitVec 16) : (s.latchInputs k).fault = s.fault := rfl
@[simp] theorem State.latchInputs_inputs (k : BitVec 16) : (s.latchInputs k).inputs = s.inputs + 1 := rfl

/-! ### Counting the timers down -/

@[simp] theorem State.tickTimers_v : (s.tickTimers).v = s.v := rfl
@[simp] theorem State.tickTimers_i : (s.tickTimers).i = s.i := rfl
@[simp] theorem State.tickTimers_pc : (s.tickTimers).pc = s.pc := rfl
@[simp] theorem State.tickTimers_sp : (s.tickTimers).sp = s.sp := rfl
@[simp] theorem State.tickTimers_stack : (s.tickTimers).stack = s.stack := rfl
@[simp] theorem State.tickTimers_dt : (s.tickTimers).dt = countDown s.dt := rfl
@[simp] theorem State.tickTimers_st : (s.tickTimers).st = countDown s.st := rfl
@[simp] theorem State.tickTimers_key : (s.tickTimers).key = s.key := rfl
@[simp] theorem State.tickTimers_fb : (s.tickTimers).fb = s.fb := rfl
@[simp] theorem State.tickTimers_mem : (s.tickTimers).mem = s.mem := rfl
@[simp] theorem State.tickTimers_fault : (s.tickTimers).fault = s.fault := rfl
@[simp] theorem State.tickTimers_inputs : (s.tickTimers).inputs = s.inputs := rfl

/-! ### Steps 1 and 2 of the cycle -/

@[simp] theorem State.begin_v (k : BitVec 16) : (s.begin k).v = s.v := rfl
@[simp] theorem State.begin_i (k : BitVec 16) : (s.begin k).i = s.i := rfl
@[simp] theorem State.begin_pc (k : BitVec 16) : (s.begin k).pc = s.pc := rfl
@[simp] theorem State.begin_sp (k : BitVec 16) : (s.begin k).sp = s.sp := rfl
@[simp] theorem State.begin_stack (k : BitVec 16) : (s.begin k).stack = s.stack := rfl
@[simp] theorem State.begin_dt (k : BitVec 16) : (s.begin k).dt = countDown s.dt := rfl
@[simp] theorem State.begin_st (k : BitVec 16) : (s.begin k).st = countDown s.st := rfl
@[simp] theorem State.begin_key (k : BitVec 16) : (s.begin k).key = k := rfl
@[simp] theorem State.begin_fb (k : BitVec 16) : (s.begin k).fb = s.fb := rfl
@[simp] theorem State.begin_mem (k : BitVec 16) : (s.begin k).mem = s.mem := rfl
@[simp] theorem State.begin_fault (k : BitVec 16) : (s.begin k).fault = s.fault := rfl
@[simp] theorem State.begin_inputs (k : BitVec 16) : (s.begin k).inputs = s.inputs + 1 := rfl

/-! ### Clearing a key -/

@[simp] theorem State.clearKey_v (k : Nat) : (s.clearKey k).v = s.v := rfl
@[simp] theorem State.clearKey_i (k : Nat) : (s.clearKey k).i = s.i := rfl
@[simp] theorem State.clearKey_pc (k : Nat) : (s.clearKey k).pc = s.pc := rfl
@[simp] theorem State.clearKey_sp (k : Nat) : (s.clearKey k).sp = s.sp := rfl
@[simp] theorem State.clearKey_stack (k : Nat) : (s.clearKey k).stack = s.stack := rfl
@[simp] theorem State.clearKey_dt (k : Nat) : (s.clearKey k).dt = s.dt := rfl
@[simp] theorem State.clearKey_st (k : Nat) : (s.clearKey k).st = s.st := rfl
@[simp] theorem State.clearKey_key (k : Nat) : (s.clearKey k).key = s.key &&& ~~~(1#16 <<< k) := rfl
@[simp] theorem State.clearKey_fb (k : Nat) : (s.clearKey k).fb = s.fb := rfl
@[simp] theorem State.clearKey_mem (k : Nat) : (s.clearKey k).mem = s.mem := rfl
@[simp] theorem State.clearKey_fault (k : Nat) : (s.clearKey k).fault = s.fault := rfl
@[simp] theorem State.clearKey_inputs (k : Nat) : (s.clearKey k).inputs = s.inputs := rfl

/-! ### Writing a block of registers -/

@[simp] theorem State.writeBlockFrom_i (k : Nat) (bs : List Byte) : (s.writeBlockFrom k bs).i = s.i := by
  induction bs generalizing s k with
  | nil => rfl
  | cons b bs ih => rw [State.writeBlockFrom, ih, State.writeV_i]
@[simp] theorem State.writeBlockFrom_pc (k : Nat) (bs : List Byte) : (s.writeBlockFrom k bs).pc = s.pc := by
  induction bs generalizing s k with
  | nil => rfl
  | cons b bs ih => rw [State.writeBlockFrom, ih, State.writeV_pc]
@[simp] theorem State.writeBlockFrom_sp (k : Nat) (bs : List Byte) : (s.writeBlockFrom k bs).sp = s.sp := by
  induction bs generalizing s k with
  | nil => rfl
  | cons b bs ih => rw [State.writeBlockFrom, ih, State.writeV_sp]
@[simp] theorem State.writeBlockFrom_stack (k : Nat) (bs : List Byte) : (s.writeBlockFrom k bs).stack = s.stack := by
  induction bs generalizing s k with
  | nil => rfl
  | cons b bs ih => rw [State.writeBlockFrom, ih, State.writeV_stack]
@[simp] theorem State.writeBlockFrom_dt (k : Nat) (bs : List Byte) : (s.writeBlockFrom k bs).dt = s.dt := by
  induction bs generalizing s k with
  | nil => rfl
  | cons b bs ih => rw [State.writeBlockFrom, ih, State.writeV_dt]
@[simp] theorem State.writeBlockFrom_st (k : Nat) (bs : List Byte) : (s.writeBlockFrom k bs).st = s.st := by
  induction bs generalizing s k with
  | nil => rfl
  | cons b bs ih => rw [State.writeBlockFrom, ih, State.writeV_st]
@[simp] theorem State.writeBlockFrom_key (k : Nat) (bs : List Byte) : (s.writeBlockFrom k bs).key = s.key := by
  induction bs generalizing s k with
  | nil => rfl
  | cons b bs ih => rw [State.writeBlockFrom, ih, State.writeV_key]
@[simp] theorem State.writeBlockFrom_fb (k : Nat) (bs : List Byte) : (s.writeBlockFrom k bs).fb = s.fb := by
  induction bs generalizing s k with
  | nil => rfl
  | cons b bs ih => rw [State.writeBlockFrom, ih, State.writeV_fb]
@[simp] theorem State.writeBlockFrom_mem (k : Nat) (bs : List Byte) : (s.writeBlockFrom k bs).mem = s.mem := by
  induction bs generalizing s k with
  | nil => rfl
  | cons b bs ih => rw [State.writeBlockFrom, ih, State.writeV_mem]
@[simp] theorem State.writeBlockFrom_fault (k : Nat) (bs : List Byte) : (s.writeBlockFrom k bs).fault = s.fault := by
  induction bs generalizing s k with
  | nil => rfl
  | cons b bs ih => rw [State.writeBlockFrom, ih, State.writeV_fault]
@[simp] theorem State.writeBlockFrom_inputs (k : Nat) (bs : List Byte) : (s.writeBlockFrom k bs).inputs = s.inputs := by
  induction bs generalizing s k with
  | nil => rfl
  | cons b bs ih => rw [State.writeBlockFrom, ih, State.writeV_inputs]

@[simp] theorem State.writeBlockV_i (bs : List Byte) : (s.writeBlockV bs).i = s.i := s.writeBlockFrom_i 0 bs
@[simp] theorem State.writeBlockV_pc (bs : List Byte) : (s.writeBlockV bs).pc = s.pc := s.writeBlockFrom_pc 0 bs
@[simp] theorem State.writeBlockV_sp (bs : List Byte) : (s.writeBlockV bs).sp = s.sp := s.writeBlockFrom_sp 0 bs
@[simp] theorem State.writeBlockV_stack (bs : List Byte) : (s.writeBlockV bs).stack = s.stack := s.writeBlockFrom_stack 0 bs
@[simp] theorem State.writeBlockV_dt (bs : List Byte) : (s.writeBlockV bs).dt = s.dt := s.writeBlockFrom_dt 0 bs
@[simp] theorem State.writeBlockV_st (bs : List Byte) : (s.writeBlockV bs).st = s.st := s.writeBlockFrom_st 0 bs
@[simp] theorem State.writeBlockV_key (bs : List Byte) : (s.writeBlockV bs).key = s.key := s.writeBlockFrom_key 0 bs
@[simp] theorem State.writeBlockV_fb (bs : List Byte) : (s.writeBlockV bs).fb = s.fb := s.writeBlockFrom_fb 0 bs
@[simp] theorem State.writeBlockV_mem (bs : List Byte) : (s.writeBlockV bs).mem = s.mem := s.writeBlockFrom_mem 0 bs
@[simp] theorem State.writeBlockV_fault (bs : List Byte) : (s.writeBlockV bs).fault = s.fault := s.writeBlockFrom_fault 0 bs
@[simp] theorem State.writeBlockV_inputs (bs : List Byte) : (s.writeBlockV bs).inputs = s.inputs := s.writeBlockFrom_inputs 0 bs

/-! ### The readers, through the fields they read -/

theorem State.readV_congr {s t : State} (h : t.v = s.v) (r : Reg) : t.readV r = s.readV r := by simp only [State.readV, h]

theorem State.readMem_congr {s t : State} (h : t.mem = s.mem) (a : Nat) : t.readMem a = s.readMem a := by
  simp only [State.readMem, h]

theorem State.fetch_congr {s t : State} (hm : t.mem = s.mem) (hp : t.pc = s.pc) : t.fetch = s.fetch := by
  simp only [State.fetch, State.readMem, hm, hp]

@[simp] theorem State.readV_begin (k : BitVec 16) (r : Reg) : (s.begin k).readV r = s.readV r := rfl
@[simp] theorem State.readMem_begin (k : BitVec 16) (a : Nat) : (s.begin k).readMem a = s.readMem a := rfl
@[simp] theorem State.fetch_begin (k : BitVec 16) : (s.begin k).fetch = s.fetch := rfl
@[simp] theorem State.readV_apply (d : Directive) (r : Reg) : (s.apply d).readV r = s.readV r := by cases d <;> rfl
@[simp] theorem State.keyHeld_apply (d : Directive) (k : Nat) : (s.apply d).keyHeld k = s.keyHeld k := by cases d <;> rfl
@[simp] theorem State.keyHeld_writeV (r : Reg) (b : Byte) (k : Nat) : (s.writeV r b).keyHeld k = s.keyHeld k := rfl
@[simp] theorem State.readV_clearKey (k : Nat) (r : Reg) : (s.clearKey k).readV r = s.readV r := rfl
@[simp] theorem State.readMem_clearKey (k a : Nat) : (s.clearKey k).readMem a = s.readMem a := rfl
@[simp] theorem State.readMem_apply (d : Directive) (a : Nat) : (s.apply d).readMem a = s.readMem a := by cases d <;> rfl
@[simp] theorem State.readMem_writeV (r : Reg) (b : Byte) (a : Nat) : (s.writeV r b).readMem a = s.readMem a := rfl
@[simp] theorem State.readMem_writeResultFlag (x : Reg) (b : Byte) (f : Bool) (a : Nat) :
    (s.writeResultFlag x b f).readMem a = s.readMem a := rfl
@[simp] theorem State.readMem_writeBlockV (bs : List Byte) (a : Nat) : (s.writeBlockV bs).readMem a = s.readMem a :=
  State.readMem_congr (s.writeBlockV_mem bs) a

/-- Reading a register after a write: the written one gives the value written, every other one what it held (R10, R20). -/
theorem State.readV_writeV (r q : Reg) (b : Byte) : (s.writeV r b).readV q = if q = r then b else s.readV q := by
  by_cases h : q = r
  · subst h; simp [State.readV, State.writeV]
  · have h' : r.toNat ≠ q.toNat := fun e => h (BitVec.eq_of_toNat_eq e.symm)
    simp [State.readV, State.writeV, h, h']

@[simp] theorem State.readV_writeV_self (r : Reg) (b : Byte) : (s.writeV r b).readV r = b := by simp [State.readV_writeV]

theorem State.readV_writeV_ne {r q : Reg} (b : Byte) (h : q ≠ r) : (s.writeV r b).readV q = s.readV q := by
  simp [State.readV_writeV, h]

/-- The write priority of R22: VF holds the flag, then V[X] the result, then every register what it held. -/
theorem State.readV_writeResultFlag (x q : Reg) (b : Byte) (f : Bool) :
    (s.writeResultFlag x b f).readV q = if q = VF then flagByte f else if q = x then b else s.readV q := by
  simp only [State.writeResultFlag, State.readV_writeV]

end Sys2Proof.Machine
end

