-- ==== Sys2Proof/Laws/Memory.lean ====
section
/-! SUPPORT. The laws of memory: a read after a write, and that every memory operation keeps the canonical form
(spec/20_memory.md rules R50 to R56, R60). -/

namespace Sys2Proof.Machine

/-! ### Read after write (R55, R60) -/

theorem Memory.lookup_insert (m : Memory) (a c : Nat) (b : Byte) :
    Memory.lookup (Memory.insert a b m) c = if c = a then some b else m.lookup c := by
  induction m with
  | nil => simp [Memory.insert, Memory.lookup, eq_comm]
  | cons hd tl ih =>
    obtain ⟨k, d⟩ := hd
    simp only [Memory.insert]
    split
    · simp [Memory.lookup, eq_comm]
    · split
      · rename_i h; subst h
        by_cases hc : c = a
        · simp [Memory.lookup, hc]
        · have : ¬ a = c := fun e => hc e.symm
          simp [Memory.lookup, hc, this]
      · simp only [Memory.lookup, ih]
        by_cases hk : k = c
        · have : ¬ c = a := by omega
          simp [hk, this]
        · simp [hk]

theorem Memory.lookup_erase (m : Memory) (a c : Nat) :
    Memory.lookup (Memory.erase a m) c = if c = a then none else m.lookup c := by
  induction m with
  | nil => simp [Memory.erase, Memory.lookup]
  | cons hd tl ih =>
    obtain ⟨k, d⟩ := hd
    simp only [Memory.erase]
    split
    · rename_i h; subst h
      rw [ih]
      by_cases hc : c = k
      · simp [hc]
      · have : ¬ k = c := fun e => hc e.symm
        simp [hc, Memory.lookup, this]
    · rename_i h
      simp only [Memory.lookup, ih]
      by_cases hk : k = c
      · have : ¬ c = a := by omega
        simp [hk, this]
      · simp [hk]

/-- A write changes the addressed byte, to the value written, and no other byte (R55), in every memory. -/
theorem Memory.read_write (m : Memory) (a c : Nat) (b : Byte) : (m.write a b).read c = if c = a then b else m.read c := by
  simp only [Memory.read, Memory.write]
  split
  · rename_i hb
    rw [Memory.lookup_erase]
    by_cases h : c = a <;> simp [h, hb]
  · rw [Memory.lookup_insert]
    by_cases h : c = a <;> simp [h]

/-- After a block write every byte of the block is the byte written, and every other address is as before (R53, R55). -/
theorem Memory.read_writeBytes (m : Memory) (a c : Nat) (bs : List Byte) :
    (m.writeBytes a bs).read c = if a ≤ c ∧ c < a + bs.length then bs.getD (c - a) 0 else m.read c := by
  induction bs generalizing m a with
  | nil => simp [Memory.writeBytes]
  | cons b bs ih =>
    rw [Memory.writeBytes, ih, Memory.read_write, List.length_cons]
    by_cases h1 : a + 1 ≤ c ∧ c < a + 1 + bs.length
    · have e : c - a = (c - (a + 1)) + 1 := by omega
      rw [if_pos h1, if_pos (by omega), e, List.getD_cons_succ]
    · rw [if_neg h1]
      by_cases h2 : c = a
      · subst h2; simp
      · rw [if_neg h2, if_neg (by omega)]

theorem Memory.readBytes_length (m : Memory) (a n : Nat) : (m.readBytes a n).length = n := by
  induction n generalizing a with
  | zero => rfl
  | succ n ih => simp [Memory.readBytes, ih]

/-- Byte `j` of a block read is the byte at `a + j` (R52, R53). -/
theorem Memory.readBytes_getD (m : Memory) (a n j : Nat) (h : j < n) : (m.readBytes a n).getD j 0 = m.read (a + j) := by
  induction n generalizing a j with
  | zero => omega
  | succ n ih =>
    cases j with
    | zero => simp [Memory.readBytes]
    | succ j =>
      rw [Memory.readBytes, List.getD_cons_succ, ih _ _ (by omega)]
      congr 1; omega

/-! ### The canonical form -/

theorem Memory.mem_insert {m : Memory} {a : Nat} {b : Byte} {c : Host.Cell} (h : c ∈ Memory.insert a b m) :
    c = (a, b) ∨ c ∈ m := by
  induction m with
  | nil => simpa [Memory.insert] using h
  | cons hd tl ih =>
    obtain ⟨k, d⟩ := hd
    simp only [Memory.insert] at h
    split at h
    · simpa using h
    · split at h
      · rcases List.mem_cons.1 h with h | h
        · exact .inl h
        · exact .inr (List.mem_cons_of_mem _ h)
      · rcases List.mem_cons.1 h with h | h
        · exact .inr (h ▸ List.mem_cons_self)
        · exact (ih h).imp_right (List.mem_cons_of_mem _)

theorem Memory.mem_erase {m : Memory} {a : Nat} {c : Host.Cell} (h : c ∈ Memory.erase a m) : c ∈ m := by
  induction m with
  | nil => simp [Memory.erase] at h
  | cons hd tl ih =>
    obtain ⟨k, d⟩ := hd
    simp only [Memory.erase] at h
    split at h
    · exact List.mem_cons_of_mem _ (ih h)
    · rcases List.mem_cons.1 h with h | h
      · exact h ▸ List.mem_cons_self
      · exact List.mem_cons_of_mem _ (ih h)

theorem Memory.insert_rising {m : Memory} (a : Nat) (b : Byte) (h : m.Pairwise (fun c d => c.1 < d.1)) :
    (Memory.insert a b m).Pairwise (fun c d => c.1 < d.1) := by
  induction m with
  | nil => simp [Memory.insert]
  | cons hd tl ih =>
    obtain ⟨k, d⟩ := hd
    obtain ⟨h1, h2⟩ := List.pairwise_cons.1 h
    simp only [Memory.insert]
    split
    · rename_i hak
      refine List.pairwise_cons.2 ⟨fun c hc => ?_, h⟩
      rcases List.mem_cons.1 hc with rfl | hc
      · exact hak
      · exact Nat.lt_trans hak (h1 c hc)
    · split
      · rename_i e; subst e
        exact List.pairwise_cons.2 ⟨h1, h2⟩
      · refine List.pairwise_cons.2 ⟨fun c hc => ?_, ih h2⟩
        rcases Memory.mem_insert hc with rfl | hc
        · show k < a; omega
        · exact h1 c hc

theorem Memory.erase_rising {m : Memory} (a : Nat) (h : m.Pairwise (fun c d => c.1 < d.1)) :
    (Memory.erase a m).Pairwise (fun c d => c.1 < d.1) := by
  induction m with
  | nil => simp [Memory.erase]
  | cons hd tl ih =>
    obtain ⟨k, d⟩ := hd
    obtain ⟨h1, h2⟩ := List.pairwise_cons.1 h
    simp only [Memory.erase]
    split
    · exact ih h2
    · exact List.pairwise_cons.2 ⟨fun c hc => h1 c (Memory.mem_erase hc), ih h2⟩

/-- A write below 4096 keeps the canonical form. -/
theorem Memory.write_wf {m : Memory} {a : Nat} (b : Byte) (h : m.wf) (ha : a < memSize) : (m.write a b).wf := by
  unfold Memory.write
  split
  · exact ⟨Memory.erase_rising a h.1, fun c hc => h.2 c (Memory.mem_erase hc)⟩
  · rename_i hb
    refine ⟨Memory.insert_rising a b h.1, fun c hc => ?_⟩
    rcases Memory.mem_insert hc with rfl | hc
    · exact ⟨ha, hb⟩
    · exact h.2 c hc

/-- A block write below 4096 keeps the canonical form. -/
theorem Memory.writeBytes_wf {m : Memory} {a : Nat} {bs : List Byte} (h : m.wf) (ha : a + bs.length ≤ memSize) :
    (m.writeBytes a bs).wf := by
  induction bs generalizing m a with
  | nil => exact h
  | cons b bs ih =>
    rw [List.length_cons] at ha
    exact ih (Memory.write_wf b h (by omega)) (by omega)

theorem State.reset_mem_wf : State.reset.mem.wf := ⟨List.Pairwise.nil, by simp [State.reset]⟩

/-! ### The two data accesses and ROM load: everything they can do -/

theorem Memory.beyond_eq_false {a n : Nat} : Memory.beyond a n = false ↔ n = 0 ∨ a + n ≤ memSize := by
  simp [Memory.beyond, memSize]; omega

theorem Memory.beyond_eq_true {a n : Nat} : Memory.beyond a n = true ↔ 1 ≤ n ∧ 0x0FFF < a + (n - 1) := by
  simp [Memory.beyond]

/-- A data read either leaves memory and gives nothing, or gives the bytes at I in ascending order (R56). -/
theorem State.loadAtI_eq_some {s : State} {n : Nat} {bs : List Byte} :
    s.loadAtI n = some bs ↔ (n = 0 ∨ s.i.toNat + n ≤ memSize) ∧ bs = s.mem.readBytes s.i.toNat n := by
  unfold State.loadAtI
  cases h : Memory.beyond s.i.toNat n
  · simp [Memory.beyond_eq_false.1 h, eq_comm]
  · have h' := Memory.beyond_eq_true.1 h
    have : ¬ (n = 0 ∨ s.i.toNat + n ≤ memSize) := by simp only [memSize]; omega
    simp [this]

theorem State.loadAtI_eq_none {s : State} {n : Nat} : s.loadAtI n = none ↔ 1 ≤ n ∧ 0x0FFF < s.i.toNat + (n - 1) := by
  unfold State.loadAtI
  rw [← Memory.beyond_eq_true]
  cases Memory.beyond s.i.toNat n <;> simp

/-- A data write either leaves memory and does nothing, or writes its bytes at I and changes nothing else (R56). -/
theorem State.storeAtI_eq_some {s t : State} {bs : List Byte} :
    s.storeAtI bs = some t ↔
      (bs.length = 0 ∨ s.i.toNat + bs.length ≤ memSize) ∧ t = { s with mem := s.mem.writeBytes s.i.toNat bs } := by
  unfold State.storeAtI
  cases h : Memory.beyond s.i.toNat bs.length
  · have h' := Memory.beyond_eq_false.1 h
    rw [if_neg (by decide), Option.some.injEq, eq_comm]
    exact ⟨fun e => ⟨h', e⟩, fun e => e.2⟩
  · have h' := Memory.beyond_eq_true.1 h
    have : ¬ (bs.length = 0 ∨ s.i.toNat + bs.length ≤ memSize) := by simp only [memSize]; omega
    rw [if_pos rfl]
    exact ⟨fun e => (nomatch e), fun e => absurd e.1 this⟩

theorem State.storeAtI_eq_none {s : State} {bs : List Byte} :
    s.storeAtI bs = none ↔ 1 ≤ bs.length ∧ 0x0FFF < s.i.toNat + (bs.length - 1) := by
  unfold State.storeAtI
  rw [← Memory.beyond_eq_true]
  cases Memory.beyond s.i.toNat bs.length <;> simp

/-- A data write keeps the canonical form. -/
theorem State.storeAtI_wf {s t : State} {bs : List Byte} (h : s.mem.wf) (e : s.storeAtI bs = some t) : t.mem.wf := by
  obtain ⟨hr, rfl⟩ := State.storeAtI_eq_some.1 e
  rcases hr with hr | hr
  · rw [List.length_eq_zero_iff.1 hr]; exact h
  · exact Memory.writeBytes_wf h hr

/-- ROM load keeps the canonical form. -/
theorem loadRom_wf {rom : List Byte} {t : State} (e : loadRom rom = .next t) : t.mem.wf := by
  unfold loadRom at e
  split at e
  · rename_i h
    cases e
    exact Memory.writeBytes_wf State.reset_mem_wf h
  · cases e

/-- Placing a word for the next fetch keeps the canonical form. -/
theorem State.placeWord_wf {s : State} (w : Word) (h : s.mem.wf) : (s.placeWord w).mem.wf := by
  unfold State.placeWord
  refine Memory.writeBytes_wf h ?_
  simp only [List.length_cons, List.length_nil, memSize]
  split
  · decide
  · omega

/-- A byte from ROM_BASE on that no memory lists reads as 0, whatever the font's base (R35, R51). -/
theorem Memory.initial_of_romBase_le {a : Nat} (h : romBase ≤ a) : Memory.initial a = 0 := by
  simp [Memory.initial, fontImage, h]

/-- Byte `j` of FONT_DATA is what the address FONT_BASE + j reads as while nothing is listed there (R35, R51). -/
theorem Memory.initial_fontBase_add (j : Fin 80) : Memory.initial (Config.fontBase.val + j.val) = Config.fontData[j.val] := by
  have hb := Config.fontBase.isLt
  have hj := j.isLt
  have hr : ¬ romBase ≤ Config.fontBase.val + j.val := by simp only [romBase]; omega
  simp only [Memory.initial, fontImage, if_neg hr]
  rw [dif_pos ⟨by omega, by omega⟩]
  simp only [Nat.add_sub_cancel_left]

end Sys2Proof.Machine
end

