-- ==== Sys2Proof/Laws/Ops.lean ====
section
/-! SUPPORT. What each shared operation can do, once: the stack, the timers, the key scan, the framebuffer and the sprite loops, the
register block and the flags. Later proofs cite these and do not unfold the operations. -/

namespace Sys2Proof.Machine

/-! ### The return stack (R27, R28) -/

theorem State.push_eq_none {s : State} {w : Word} : s.push w = none ↔ s.sp.val = 16 := by
  unfold State.push
  have := s.sp.isLt
  split
  · simp; omega
  · simp; omega

/-- A push that succeeds writes the entry at SP and increments SP; nothing else. -/
theorem State.push_of_lt {s : State} (w : Word) (k : Fin 16) (h : s.sp.val = k.val) :
    s.push w = some { s with stack := s.stack.set k.val w k.isLt, sp := k.succ } := by
  have hk : s.sp.val < 16 := h ▸ k.isLt
  unfold State.push
  rw [dif_pos hk]
  simp only [Option.some.injEq, State.mk.injEq, and_true, true_and]
  exact ⟨Fin.ext (by simp [h]), by congr 1⟩

theorem State.pop_eq_none {s : State} : s.pop = none ↔ s.sp.val = 0 := by
  unfold State.pop
  split
  · simp; omega
  · simp; omega

/-- A pop that succeeds answers the newest entry and decrements SP; nothing else. -/
theorem State.pop_of_eq {s : State} (k : Fin 16) (h : s.sp.val = k.val + 1) :
    s.pop = some (s.stack[k.val], { s with sp := k.castSucc }) := by
  unfold State.pop
  rw [dif_pos (by omega)]
  simp only [Option.some.injEq, Prod.mk.injEq, State.mk.injEq, and_true, true_and]
  refine ⟨?_, Fin.ext (by simp [h])⟩
  simp only [h, Nat.add_sub_cancel]

/-! ### Timers (R183) -/

/-- A timer counts down by one, floored at 0. -/
theorem countDown_toNat (t : Byte) : (countDown t).toNat = t.toNat - 1 := by
  unfold countDown
  split
  · rename_i h; subst h; rfl
  · rename_i h
    have h0 : t.toNat ≠ 0 := fun e => h (BitVec.eq_of_toNat_eq (by simpa using e))
    have := t.isLt
    have h1 : (1 : Byte).toNat = 1 := rfl
    rw [BitVec.toNat_sub, h1]
    omega

/-! ### Keys (R30, R160) -/

theorem firstKey_eq_none {key : BitVec 16} : firstKey key = none ↔ ∀ k, k < 16 → key.getLsbD k = false := by
  simp [firstKey, List.find?_eq_none]

/-- The scan answers the least held key. -/
theorem firstKey_eq_some {key : BitVec 16} {k : Nat} :
    firstKey key = some k ↔ k < 16 ∧ key.getLsbD k = true ∧ ∀ j, j < k → key.getLsbD j = false := by
  simp [firstKey, List.find?_range_eq_some]
  tauto

/-- Clearing a key clears that one bit. -/
theorem State.keyHeld_clearKey (s : State) (k j : Nat) (hj : j < 16) :
    (s.clearKey k).keyHeld j = (s.keyHeld j && !decide (j = k)) := by
  simp only [State.keyHeld, State.clearKey, BitVec.getLsbD_and, BitVec.getLsbD_not, BitVec.getLsbD_shiftLeft, hj,
    decide_true, Bool.true_and]
  by_cases h : j = k
  · subst h; simp
  · by_cases h2 : j < k
    · simp [h2, h]
    · have : ¬ j - k = 0 := by omega
      simp [h2, h, BitVec.getLsbD_one, this]

/-- A key held after a clear was held before. -/
theorem State.keyHeld_of_clearKey {s : State} {k j : Nat} (h : (s.clearKey k).keyHeld j = true) : s.keyHeld j = true := by
  simp only [State.keyHeld, State.clearKey, BitVec.getLsbD_and, Bool.and_eq_true] at h
  exact h.1

/-! ### Flags and register numbers -/

/-- A flag is 0 or 1 (R21). -/
theorem flagByte_zero_or_one (f : Bool) : flagByte f = 0 ∨ flagByte f = 1 := by cases f <;> simp [flagByte]

/-! ### Blocks of registers (R144, R145) -/

@[simp] theorem State.blockV_length (s : State) (x : Reg) : (s.blockV x).length = x.toNat + 1 := by
  simp [State.blockV, regsUpTo]

/-- Entry `r` of the block V0 to VX is V[r]. -/
theorem State.blockV_getD (s : State) (x r : Reg) (h : r.toNat ≤ x.toNat) : (s.blockV x).getD r.toNat 0 = s.readV r := by
  have : r.toNat < x.toNat + 1 := by omega
  simp [State.blockV, regsUpTo, List.getD_eq_getElem?_getD, List.getElem?_map, List.getElem?_range this]

theorem State.readV_writeBlockFrom (s : State) (k : Nat) (bs : List Byte) (h : k + bs.length ≤ 16) (r : Reg) :
    (s.writeBlockFrom k bs).readV r =
      if k ≤ r.toNat ∧ r.toNat < k + bs.length then bs.getD (r.toNat - k) 0 else s.readV r := by
  induction bs generalizing s k with
  | nil => simp [State.writeBlockFrom]
  | cons b bs ih =>
    rw [List.length_cons] at h
    rw [State.writeBlockFrom, ih _ _ (by omega), State.readV_writeV, List.length_cons]
    have hk : (r = BitVec.ofNat 4 k) ↔ r.toNat = k := by
      rw [← BitVec.toNat_inj]
      simp only [BitVec.toNat_ofNat]
      rw [Nat.mod_eq_of_lt (by omega)]
    by_cases h1 : k + 1 ≤ r.toNat ∧ r.toNat < k + 1 + bs.length
    · have e : r.toNat - k = (r.toNat - (k + 1)) + 1 := by omega
      rw [if_pos h1, if_pos (by omega), e, List.getD_cons_succ]
    · rw [if_neg h1]
      by_cases h2 : r.toNat = k
      · rw [if_pos (hk.2 h2), if_pos (by omega), h2]; simp
      · rw [if_neg (fun e => h2 (hk.1 e)), if_neg (by omega)]

/-- A block write gives V[r] entry `r` of the block and leaves the registers above it alone (R145). -/
theorem State.readV_writeBlockV (s : State) (bs : List Byte) (h : bs.length ≤ 16) (r : Reg) :
    (s.writeBlockV bs).readV r = if r.toNat < bs.length then bs.getD r.toNat 0 else s.readV r := by
  rw [State.writeBlockV, State.readV_writeBlockFrom _ _ _ (by omega)]
  simp

@[simp] theorem bcdDigits_length (b : Byte) : (bcdDigits b).length = 3 := rfl

/-! ### Framebuffer (R31) -/

@[simp] theorem Framebuffer.pixel_clear (y : Fin 32) (x : Fin 64) : Framebuffer.clear.pixel y x = false := by
  simp [Framebuffer.pixel, Framebuffer.clear]

/-- A flip changes its one pixel and no other. -/
theorem Framebuffer.pixel_flip (fb : Framebuffer) (y y' : Fin 32) (x x' : Fin 64) :
    (fb.flip y x).pixel y' x' = (fb.pixel y' x' ^^ decide (y' = y ∧ x' = x)) := by
  unfold Framebuffer.flip Framebuffer.pixel
  by_cases hy : y' = y
  · subst hy
    simp only [Vector.getElem_set_self, BitVec.getLsbD_xor, true_and]
    congr 1
    have hx' := x'.isLt
    simp only [BitVec.getLsbD_shiftLeft, hx', decide_true, Bool.true_and, BitVec.getLsbD_one]
    by_cases hx : x' = x
    · subst hx; simp
    · have hne : x'.val ≠ x.val := fun e => hx (Fin.ext e)
      by_cases hlt : x'.val < x.val
      · simp [hlt, hx]
      · have : ¬ x'.val - x.val = 0 := by omega
        simp [hlt, hx, this]
  · have hne : y.val ≠ y'.val := fun e => hy (Fin.ext e.symm)
    rw [Vector.getElem_set_ne _ _ hne]
    simp [hy]

/-! ### The sprite loops (R131) -/

/-- One sprite bit flips its pixel, or nothing when it is 0; it is a hit when that pixel was lit. -/
theorem drawBit_pixel (x0 y : Nat) (b : Byte) (p : Canvas) (c : Nat) (row : Fin 32) (col : Fin 64) :
    (drawBit x0 y b p c).fb.pixel row col =
      (p.fb.pixel row col ^^ decide (b.getLsbD (7 - c) = true ∧ row = Fin.ofNat 32 y ∧ col = Fin.ofNat 64 (x0 + c))) := by
  unfold drawBit
  cases h : b.getLsbD (7 - c) <;> simp [Framebuffer.pixel_flip]

theorem drawBit_hit (x0 y : Nat) (b : Byte) (p : Canvas) (c : Nat) :
    (drawBit x0 y b p c).hit =
      (p.hit || (b.getLsbD (7 - c) && p.fb.pixel (Fin.ofNat 32 y) (Fin.ofNat 64 (x0 + c)))) := by
  unfold drawBit
  cases h : b.getLsbD (7 - c) <;> simp

end Sys2Proof.Machine
end

