-- ==== Sys2Proof/Laws/Cycle.lean ====
section
/-! SUPPORT. What a cycle can do, once (spec/10_state.md rule R41), the fetch, the word placed by `withFetchWord`, and the frame of each way an
instruction ends. Later proofs cite these and do not unfold `cycle`, `fetchExec` or `Part.Same`. -/

namespace Sys2Proof.Machine

open Sys2Proof.Safety

/-! ### The fetch (R71, R171) -/

theorem State.fetch_eq_ite (s : State) :
    s.fetch = if 0x0FFE < s.pc.toNat then none else some (s.readMem s.pc.toNat ++ s.readMem (s.pc.toNat + 1)) := rfl

theorem nextInstr_eq_none {s : State} : nextInstr s = none ↔ 0x0FFE < s.pc.toNat := by
  simp only [nextInstr, State.fetch_eq_ite]
  split <;> simp_all

@[simp] theorem nextInstr_begin (s : State) (k : BitVec 16) : nextInstr (s.begin k) = nextInstr s := rfl

/-- The placed word is the instruction the next cycle fetches, whatever the state (logs 8 and 10). -/
theorem nextInstr_placeWord (s : State) (w : Word) : nextInstr (s.placeWord w) = some (decode w) := by
  have hp : ¬ 0x0FFE < (s.placeWord w).pc.toNat := by
    simp only [State.placeWord]
    split
    · decide
    · assumption
  have hi : ∀ a, (s.placeWord w).readMem a = Memory.read (s.mem.writeBytes (s.placeWord w).pc.toNat [highByte w, lowByte w]) a :=
    fun _ => rfl
  have e : (s.placeWord w).readMem (s.placeWord w).pc.toNat ++ (s.placeWord w).readMem ((s.placeWord w).pc.toNat + 1)
      = wordOfBytes (highByte w) (lowByte w) := by
    rw [hi, hi, Memory.read_writeBytes, Memory.read_writeBytes, if_pos (by simp), if_pos (by simp)]
    simp [wordOfBytes]
  rw [nextInstr, State.fetch_eq_ite, if_neg hp, e, wordOfBytes_bytes]
  rfl

/-! ### Executing with the random byte of the cycle (R43) -/

/-- With the free byte of its cycle, executing is `exec` (log 2). -/
theorem execWith_rndIn (i : Instr) (s : State) : execWith (Config.rndIn s.inputs) i s = exec i s := by
  cases i <;> rfl

theorem execWith_of_ne_random (b : Byte) {i : Instr} (s : State) (h : ∀ x kk, i ≠ .random x kk) : execWith b i s = exec i s := by
  cases i <;> first | rfl | exact absurd rfl (h _ _)

/-- Everything executing with a random byte can do: random leaves the masked byte in Vx, and every other instruction ignores it. -/
theorem execWith_cases (b : Byte) (i : Instr) (s : State) :
    (∃ x kk, i = .random x kk ∧ execWith b i s = .next ((s.writeV x (b &&& kk)).apply .next)) ∨
    ((∀ x kk, i ≠ .random x kk) ∧ execWith b i s = exec i s) := by
  cases i with
  | random x kk => exact .inl ⟨x, kk, rfl, rfl⟩
  | _ => exact .inr ⟨by simp, rfl⟩

/-! ### The cycle (R41) -/

theorem fetchExec_of_some (b : Byte) {s : State} {i : Instr} (h : nextInstr s = some i) : fetchExec b s = execWith b i s := by
  unfold nextInstr at h
  unfold fetchExec
  cases hf : s.fetch with
  | none => simp [hf] at h
  | some w => simp only [hf, Option.map_some, Option.some.injEq] at h; subst h; rfl

theorem fetchExec_of_none (b : Byte) {s : State} (h : nextInstr s = none) : fetchExec b s = raise .fetchRange s.pc s := by
  unfold nextInstr at h
  unfold fetchExec
  cases hf : s.fetch with
  | none => rfl
  | some w => simp [hf] at h

theorem cycle_of_fault {s : State} {f : FaultRecord} (k : BitVec 16) (b : Byte) (h : s.fault = some f) : cycle k b s = .next s := by
  simp [cycle, h]

theorem cycle_of_some {s : State} {i : Instr} (k : BitVec 16) (b : Byte) (h : s.fault = none) (hn : nextInstr s = some i) :
    cycle k b s = execWith b i (s.begin k) := by
  rw [cycle, h]
  exact fetchExec_of_some b hn

theorem cycle_of_none {s : State} (k : BitVec 16) (b : Byte) (h : s.fault = none) (hn : nextInstr s = none) :
    cycle k b s = .next { s.begin k with fault := some ⟨.fetchRange, s.pc⟩ } := by
  rw [cycle, h]
  exact fetchExec_of_none b hn

/-- Everything a cycle can do: it is frozen, or its fetch faults, or it runs the fetched instruction on the state its first two steps left. -/
theorem cycle_cases {k : BitVec 16} {b : Byte} {s t : State} (e : cycle k b s = .next t) :
    ((∃ f, s.fault = some f) ∧ t = s) ∨
    (s.fault = none ∧ nextInstr s = none ∧ t = { s.begin k with fault := some ⟨.fetchRange, s.pc⟩ }) ∨
    (s.fault = none ∧ ∃ i, nextInstr s = some i ∧ execWith b i (s.begin k) = .next t) := by
  cases h : s.fault with
  | some f =>
    rw [cycle_of_fault k b h] at e
    cases e
    exact .inl ⟨⟨f, rfl⟩, rfl⟩
  | none =>
    cases hn : nextInstr s with
    | none =>
      rw [cycle_of_none k b h hn] at e
      cases e
      exact .inr (.inl ⟨rfl, rfl, rfl⟩)
    | some i =>
      rw [cycle_of_some k b h hn] at e
      exact .inr (.inr ⟨rfl, i, rfl, e⟩)

/-! ### Frames -/

theorem keepsAllBut_mono {P Q : Part → Prop} {s t : State} (h : KeepsAllBut P s t) (hpq : ∀ p, P p → Q p) : KeepsAllBut Q s t :=
  fun p hq => h p fun hp => hq (hpq p hp)

theorem keepsAllBut_trans {P : Part → Prop} {s t u : State} (h : KeepsAllBut P s t) (h' : KeepsAllBut P t u) : KeepsAllBut P s u := by
  intro p hp
  have h1 := h p hp
  have h2 := h' p hp
  cases p <;> exact Eq.trans h2 h1

/-- A directive writes pc alone. -/
theorem keeps_apply (s : State) (d : Directive) : KeepsAllButList [.pc] s (s.apply d) := by
  intro p hp
  cases d <;> cases p <;> first | rfl | simp at hp

/-- A register write with `next` writes that register and pc. -/
theorem keeps_writeV (s : State) (x : Reg) (b : Byte) : KeepsAllButList [.pc, .v x] s ((s.writeV x b).apply .next) := by
  intro p hp
  cases p with
  | v r =>
    have hr : r ≠ x := by simpa using hp
    simp [Part.Same, State.readV_writeV, hr]
  | pc => simp at hp
  | _ => rfl

/-- A result with its flag writes V[X], VF and pc. -/
theorem keeps_writeResultFlag (s : State) (x : Reg) (b : Byte) (f : Bool) :
    KeepsAllButList [.pc, .v x, .v VF] s ((s.writeResultFlag x b f).apply .next) := by
  intro p hp
  cases p with
  | v r =>
    have hr : r ≠ x ∧ r ≠ VF := by simpa using hp
    simp [Part.Same, State.readV_writeResultFlag, hr]
  | pc => simp at hp
  | _ => rfl

/-- Taking a fault writes the fault latch alone (R176). -/
theorem keeps_fault (s : State) (f : FaultRecord) : KeepsAllButList [.fault] s { s with fault := some f } := by
  intro p hp
  cases p <;> first | rfl | simp at hp

/-- A store at I writes its bytes and, with `next`, pc. -/
theorem keeps_storeAtI (s : State) (bs : List Byte) :
    KeepsAllBut (fun p => p = .pc ∨ ∃ a, s.i.toNat ≤ a ∧ a < s.i.toNat + bs.length ∧ p = .mem a) s
      (State.apply { s with mem := s.mem.writeBytes s.i.toNat bs } .next) := by
  intro p hp
  cases p with
  | mem a =>
    have ha : ¬ (s.i.toNat ≤ a ∧ a < s.i.toNat + bs.length) := by simpa using hp
    show Memory.read _ a = Memory.read _ a
    rw [State.apply_mem, Memory.read_writeBytes, if_neg ha]
  | pc => simp at hp
  | _ => rfl

/-- A skip moves pc by 4 or by 2 and writes nothing else. -/
theorem skipIf_cases (c : Bool) (s : State) : ∃ t, skipIf c s = .next t ∧ KeepsAllButList [.pc] s t ∧
    (c = true → t.pc = s.pc + 4) ∧ (c = false → t.pc = s.pc + 2) :=
  ⟨_, rfl, keeps_apply s _, by rintro rfl; rfl, by rintro rfl; rfl⟩

end Sys2Proof.Machine
end

