-- ==== Sys2Proof/Laws/PerInstr.lean ====
section
/-! SUPPORT. Statements about every instruction as syntax, one lemma per constructor: the word of a well-formed instruction selects its own
row of the opcode table and no other (spec/30_encoding.md rules R80, R81, R83). -/

namespace Sys2Proof.Laws.EncodingRow

/-- The mnemonic of an instruction in spec/opcode_table.json. -/
def mnemonic : Instr → String
  | .clearScreen => "clear-screen"
  | .ret => "return"
  | .jump _ => "jump"
  | .call _ => "call"
  | .skipEqImm _ _ => "skip-eq-imm"
  | .skipNeImm _ _ => "skip-ne-imm"
  | .skipEqReg _ _ => "skip-eq-reg"
  | .loadImm _ _ => "load-imm"
  | .addImm _ _ => "add-imm"
  | .loadReg _ _ => "load-reg"
  | .orReg _ _ => "or"
  | .andReg _ _ => "and"
  | .xorReg _ _ => "xor"
  | .addReg _ _ => "add-reg"
  | .subReg _ _ => "sub-reg"
  | .shiftRight _ _ => "shift-right"
  | .subnReg _ _ => "subn-reg"
  | .shiftLeft _ _ => "shift-left"
  | .skipNeReg _ _ => "skip-ne-reg"
  | .loadIndex _ => "load-index"
  | .jumpOffset _ => "jump-offset"
  | .random _ _ => "random"
  | .draw _ _ _ => "draw"
  | .skipKeyPressed _ => "skip-key-pressed"
  | .skipKeyNotPressed _ => "skip-key-not-pressed"
  | .getDelay _ => "get-delay"
  | .waitKey _ => "wait-key"
  | .setDelay _ => "set-delay"
  | .setSound _ => "set-sound"
  | .addIndex _ => "add-index"
  | .fontAddress _ => "font-address"
  | .storeBcd _ => "store-bcd"
  | .storeRegs _ => "store-regs"
  | .loadRegs _ => "load-regs"
  | .unmatched _ => "unmatched"

/-- The mnemonics of the rows a word selects. -/
def rowNames (w : Word) : List String := (rows.filter fun r => r.selects w).map Row.mnemonic

/-- The rows of the table an instruction's word has to select: its own, or none for an unmatched word (R80). -/
def expected : Instr → List String
  | .unmatched _ => []
  | .clearScreen => [mnemonic .clearScreen]
  | .ret => [mnemonic .ret]
  | .jump nnn => [mnemonic (.jump nnn)]
  | .call nnn => [mnemonic (.call nnn)]
  | .skipEqImm x kk => [mnemonic (.skipEqImm x kk)]
  | .skipNeImm x kk => [mnemonic (.skipNeImm x kk)]
  | .skipEqReg x y => [mnemonic (.skipEqReg x y)]
  | .loadImm x kk => [mnemonic (.loadImm x kk)]
  | .addImm x kk => [mnemonic (.addImm x kk)]
  | .loadReg x y => [mnemonic (.loadReg x y)]
  | .orReg x y => [mnemonic (.orReg x y)]
  | .andReg x y => [mnemonic (.andReg x y)]
  | .xorReg x y => [mnemonic (.xorReg x y)]
  | .addReg x y => [mnemonic (.addReg x y)]
  | .subReg x y => [mnemonic (.subReg x y)]
  | .shiftRight x y => [mnemonic (.shiftRight x y)]
  | .subnReg x y => [mnemonic (.subnReg x y)]
  | .shiftLeft x y => [mnemonic (.shiftLeft x y)]
  | .skipNeReg x y => [mnemonic (.skipNeReg x y)]
  | .loadIndex nnn => [mnemonic (.loadIndex nnn)]
  | .jumpOffset nnn => [mnemonic (.jumpOffset nnn)]
  | .random x kk => [mnemonic (.random x kk)]
  | .draw x y n => [mnemonic (.draw x y n)]
  | .skipKeyPressed x => [mnemonic (.skipKeyPressed x)]
  | .skipKeyNotPressed x => [mnemonic (.skipKeyNotPressed x)]
  | .getDelay x => [mnemonic (.getDelay x)]
  | .waitKey x => [mnemonic (.waitKey x)]
  | .setDelay x => [mnemonic (.setDelay x)]
  | .setSound x => [mnemonic (.setSound x)]
  | .addIndex x => [mnemonic (.addIndex x)]
  | .fontAddress x => [mnemonic (.fontAddress x)]
  | .storeBcd x => [mnemonic (.storeBcd x)]
  | .storeRegs x => [mnemonic (.storeRegs x)]
  | .loadRegs x => [mnemonic (.loadRegs x)]

/-- The word of a well-formed instruction selects exactly the instruction's row, and the word of a well-formed unmatched selects none. -/
def Statement (i : Instr) : Prop := i.wellFormed = true → rowNames (encode i) = expected i

/-- An unmatched word that is well formed selects no row. -/
theorem rowNames_of_not_matches {w : Word} (h : matchesTable w = false) : rowNames w = [] := by
  simp only [matchesTable, List.any_eq_false] at h
  simpa [rowNames, List.filter_eq_nil_iff] using h

theorem clearScreen : Statement (.clearScreen) := fun _ => by decide

theorem ret : Statement (.ret) := fun _ => by decide

theorem jump (nnn : Addr12) : Statement (.jump nnn) := fun _ => by
  simp [rowNames, rows, rowsClass0, rowsClassOnly, rowsByN, rowsByKK, Row.selects_eq, List.filter, encode, expected, mnemonic]
  simp [fieldClass, fieldX, fieldY, fieldN]

theorem call (nnn : Addr12) : Statement (.call nnn) := fun _ => by
  simp [rowNames, rows, rowsClass0, rowsClassOnly, rowsByN, rowsByKK, Row.selects_eq, List.filter, encode, expected, mnemonic]
  simp [fieldClass, fieldX, fieldY, fieldN]

theorem skipEqImm (x : Reg) (kk : Byte) : Statement (.skipEqImm x kk) := fun _ => by
  simp [rowNames, rows, rowsClass0, rowsClassOnly, rowsByN, rowsByKK, Row.selects_eq, List.filter, encode, expected, mnemonic]
  simp [fieldClass, fieldX, fieldY, fieldN]

theorem skipNeImm (x : Reg) (kk : Byte) : Statement (.skipNeImm x kk) := fun _ => by
  simp [rowNames, rows, rowsClass0, rowsClassOnly, rowsByN, rowsByKK, Row.selects_eq, List.filter, encode, expected, mnemonic]
  simp [fieldClass, fieldX, fieldY, fieldN]

theorem skipEqReg (x y : Reg) : Statement (.skipEqReg x y) := fun _ => by
  simp [rowNames, rows, rowsClass0, rowsClassOnly, rowsByN, rowsByKK, Row.selects_eq, List.filter, encode, expected, mnemonic]
  simp [fieldClass, fieldX, fieldY, fieldN]

theorem loadImm (x : Reg) (kk : Byte) : Statement (.loadImm x kk) := fun _ => by
  simp [rowNames, rows, rowsClass0, rowsClassOnly, rowsByN, rowsByKK, Row.selects_eq, List.filter, encode, expected, mnemonic]
  simp [fieldClass, fieldX, fieldY, fieldN]

theorem addImm (x : Reg) (kk : Byte) : Statement (.addImm x kk) := fun _ => by
  simp [rowNames, rows, rowsClass0, rowsClassOnly, rowsByN, rowsByKK, Row.selects_eq, List.filter, encode, expected, mnemonic]
  simp [fieldClass, fieldX, fieldY, fieldN]

theorem loadReg (x y : Reg) : Statement (.loadReg x y) := fun _ => by
  simp [rowNames, rows, rowsClass0, rowsClassOnly, rowsByN, rowsByKK, Row.selects_eq, List.filter, encode, expected, mnemonic]
  simp [fieldClass, fieldX, fieldY, fieldN]

theorem orReg (x y : Reg) : Statement (.orReg x y) := fun _ => by
  simp [rowNames, rows, rowsClass0, rowsClassOnly, rowsByN, rowsByKK, Row.selects_eq, List.filter, encode, expected, mnemonic]
  simp [fieldClass, fieldX, fieldY, fieldN]

theorem andReg (x y : Reg) : Statement (.andReg x y) := fun _ => by
  simp [rowNames, rows, rowsClass0, rowsClassOnly, rowsByN, rowsByKK, Row.selects_eq, List.filter, encode, expected, mnemonic]
  simp [fieldClass, fieldX, fieldY, fieldN]

theorem xorReg (x y : Reg) : Statement (.xorReg x y) := fun _ => by
  simp [rowNames, rows, rowsClass0, rowsClassOnly, rowsByN, rowsByKK, Row.selects_eq, List.filter, encode, expected, mnemonic]
  simp [fieldClass, fieldX, fieldY, fieldN]

theorem addReg (x y : Reg) : Statement (.addReg x y) := fun _ => by
  simp [rowNames, rows, rowsClass0, rowsClassOnly, rowsByN, rowsByKK, Row.selects_eq, List.filter, encode, expected, mnemonic]
  simp [fieldClass, fieldX, fieldY, fieldN]

theorem subReg (x y : Reg) : Statement (.subReg x y) := fun _ => by
  simp [rowNames, rows, rowsClass0, rowsClassOnly, rowsByN, rowsByKK, Row.selects_eq, List.filter, encode, expected, mnemonic]
  simp [fieldClass, fieldX, fieldY, fieldN]

theorem shiftRight (x y : Reg) : Statement (.shiftRight x y) := fun _ => by
  simp [rowNames, rows, rowsClass0, rowsClassOnly, rowsByN, rowsByKK, Row.selects_eq, List.filter, encode, expected, mnemonic]
  simp [fieldClass, fieldX, fieldY, fieldN]

theorem subnReg (x y : Reg) : Statement (.subnReg x y) := fun _ => by
  simp [rowNames, rows, rowsClass0, rowsClassOnly, rowsByN, rowsByKK, Row.selects_eq, List.filter, encode, expected, mnemonic]
  simp [fieldClass, fieldX, fieldY, fieldN]

theorem shiftLeft (x y : Reg) : Statement (.shiftLeft x y) := fun _ => by
  simp [rowNames, rows, rowsClass0, rowsClassOnly, rowsByN, rowsByKK, Row.selects_eq, List.filter, encode, expected, mnemonic]
  simp [fieldClass, fieldX, fieldY, fieldN]

theorem skipNeReg (x y : Reg) : Statement (.skipNeReg x y) := fun _ => by
  simp [rowNames, rows, rowsClass0, rowsClassOnly, rowsByN, rowsByKK, Row.selects_eq, List.filter, encode, expected, mnemonic]
  simp [fieldClass, fieldX, fieldY, fieldN]

theorem loadIndex (nnn : Addr12) : Statement (.loadIndex nnn) := fun _ => by
  simp [rowNames, rows, rowsClass0, rowsClassOnly, rowsByN, rowsByKK, Row.selects_eq, List.filter, encode, expected, mnemonic]
  simp [fieldClass, fieldX, fieldY, fieldN]

theorem jumpOffset (nnn : Addr12) : Statement (.jumpOffset nnn) := fun _ => by
  simp [rowNames, rows, rowsClass0, rowsClassOnly, rowsByN, rowsByKK, Row.selects_eq, List.filter, encode, expected, mnemonic]
  simp [fieldClass, fieldX, fieldY, fieldN]

theorem random (x : Reg) (kk : Byte) : Statement (.random x kk) := fun _ => by
  simp [rowNames, rows, rowsClass0, rowsClassOnly, rowsByN, rowsByKK, Row.selects_eq, List.filter, encode, expected, mnemonic]
  simp [fieldClass, fieldX, fieldY, fieldN]

theorem draw (x y : Reg) (n : Nibble) : Statement (.draw x y n) := fun _ => by
  simp [rowNames, rows, rowsClass0, rowsClassOnly, rowsByN, rowsByKK, Row.selects_eq, List.filter, encode, expected, mnemonic]
  simp [fieldClass, fieldX, fieldY, fieldN]

theorem skipKeyPressed (x : Reg) : Statement (.skipKeyPressed x) := fun _ => by
  simp [rowNames, rows, rowsClass0, rowsClassOnly, rowsByN, rowsByKK, Row.selects_eq, List.filter, encode, expected, mnemonic, fieldY_wordXKK, fieldN_wordXKK]
  simp [fieldClass, fieldX, fieldY, fieldN]

theorem skipKeyNotPressed (x : Reg) : Statement (.skipKeyNotPressed x) := fun _ => by
  simp [rowNames, rows, rowsClass0, rowsClassOnly, rowsByN, rowsByKK, Row.selects_eq, List.filter, encode, expected, mnemonic, fieldY_wordXKK, fieldN_wordXKK]
  simp [fieldClass, fieldX, fieldY, fieldN]

theorem getDelay (x : Reg) : Statement (.getDelay x) := fun _ => by
  simp [rowNames, rows, rowsClass0, rowsClassOnly, rowsByN, rowsByKK, Row.selects_eq, List.filter, encode, expected, mnemonic, fieldY_wordXKK, fieldN_wordXKK]
  simp [fieldClass, fieldX, fieldY, fieldN]

theorem waitKey (x : Reg) : Statement (.waitKey x) := fun _ => by
  simp [rowNames, rows, rowsClass0, rowsClassOnly, rowsByN, rowsByKK, Row.selects_eq, List.filter, encode, expected, mnemonic, fieldY_wordXKK, fieldN_wordXKK]
  simp [fieldClass, fieldX, fieldY, fieldN]

theorem setDelay (x : Reg) : Statement (.setDelay x) := fun _ => by
  simp [rowNames, rows, rowsClass0, rowsClassOnly, rowsByN, rowsByKK, Row.selects_eq, List.filter, encode, expected, mnemonic, fieldY_wordXKK, fieldN_wordXKK]
  simp [fieldClass, fieldX, fieldY, fieldN]

theorem setSound (x : Reg) : Statement (.setSound x) := fun _ => by
  simp [rowNames, rows, rowsClass0, rowsClassOnly, rowsByN, rowsByKK, Row.selects_eq, List.filter, encode, expected, mnemonic, fieldY_wordXKK, fieldN_wordXKK]
  simp [fieldClass, fieldX, fieldY, fieldN]

theorem addIndex (x : Reg) : Statement (.addIndex x) := fun _ => by
  simp [rowNames, rows, rowsClass0, rowsClassOnly, rowsByN, rowsByKK, Row.selects_eq, List.filter, encode, expected, mnemonic, fieldY_wordXKK, fieldN_wordXKK]
  simp [fieldClass, fieldX, fieldY, fieldN]

theorem fontAddress (x : Reg) : Statement (.fontAddress x) := fun _ => by
  simp [rowNames, rows, rowsClass0, rowsClassOnly, rowsByN, rowsByKK, Row.selects_eq, List.filter, encode, expected, mnemonic, fieldY_wordXKK, fieldN_wordXKK]
  simp [fieldClass, fieldX, fieldY, fieldN]

theorem storeBcd (x : Reg) : Statement (.storeBcd x) := fun _ => by
  simp [rowNames, rows, rowsClass0, rowsClassOnly, rowsByN, rowsByKK, Row.selects_eq, List.filter, encode, expected, mnemonic, fieldY_wordXKK, fieldN_wordXKK]
  simp [fieldClass, fieldX, fieldY, fieldN]

theorem storeRegs (x : Reg) : Statement (.storeRegs x) := fun _ => by
  simp [rowNames, rows, rowsClass0, rowsClassOnly, rowsByN, rowsByKK, Row.selects_eq, List.filter, encode, expected, mnemonic, fieldY_wordXKK, fieldN_wordXKK]
  simp [fieldClass, fieldX, fieldY, fieldN]

theorem loadRegs (x : Reg) : Statement (.loadRegs x) := fun _ => by
  simp [rowNames, rows, rowsClass0, rowsClassOnly, rowsByN, rowsByKK, Row.selects_eq, List.filter, encode, expected, mnemonic, fieldY_wordXKK, fieldN_wordXKK]
  simp [fieldClass, fieldX, fieldY, fieldN]

theorem unmatched (w : Word) : Statement (.unmatched w) := fun h => rowNames_of_not_matches (by simpa [Instr.wellFormed, encode] using h)

end Sys2Proof.Laws.EncodingRow
end

