-- ==== Sys2Proof/Laws/Sprite.lean ====
section
/-! SUPPORT. What the sprite loops of spec/42_display.md rule R131 do, pixel by pixel: the pixels under the 1-bits are flipped, each once, and
the hit flag says whether one of them was lit. -/

namespace Sys2Proof.Machine

/-- Distinct offsets below the modulus give distinct coordinates (R131, corner case (g)). -/
theorem ofNat_add_inj {n a c d : Nat} [NeZero n] (hc : c < n) (hd : d < n)
    (h : Fin.ofNat n (a + c) = Fin.ofNat n (a + d)) : c = d := by
  have h := congrArg Fin.val h
  simp only [Fin.val_ofNat] at h
  have h' : c % n = d % n := Nat.ModEq.add_left_cancel' a h
  rwa [Nat.mod_eq_of_lt hc, Nat.mod_eq_of_lt hd] at h'

/-- Flipping under one set and then under a disjoint one flips under their union. -/
theorem flip_twice {P E F : Prop} (h : E → ¬ F) : ((P ↔ ¬ E) ↔ ¬ F) ↔ (P ↔ ¬ (E ∨ F)) := by
  by_cases hE : E <;> by_cases hF : F <;> simp_all

/-- After the first `n` bits of a sprite row, the pixels under its 1-bits are flipped and no other. -/
theorem foldl_drawBit_pixel (x0 y : Nat) (b : Byte) (p : Canvas) (row : Fin 32) (col : Fin 64) (n : Nat) (hn : n ≤ 64) :
    ((List.range n).foldl (drawBit x0 y b) p).fb.pixel row col = true ↔
      (p.fb.pixel row col = true ↔
        ¬ ∃ c, c < n ∧ row = Fin.ofNat 32 y ∧ col = Fin.ofNat 64 (x0 + c) ∧ b.getLsbD (7 - c) = true) := by
  induction n with
  | zero => simp
  | succ n ih =>
    have ih := ih (by omega)
    rw [List.range_succ, List.foldl_append, List.foldl_cons, List.foldl_nil, drawBit_pixel]
    by_cases h : b.getLsbD (7 - n) = true ∧ row = Fin.ofNat 32 y ∧ col = Fin.ofNat 64 (x0 + n)
    · have hno : ¬ ∃ c, c < n ∧ row = Fin.ofNat 32 y ∧ col = Fin.ofNat 64 (x0 + c) ∧ b.getLsbD (7 - c) = true := by
        rintro ⟨c, hc, -, e, -⟩
        have := ofNat_add_inj (by omega) (by omega) (h.2.2.symm.trans e)
        omega
      have hyes : ∃ c, c < n + 1 ∧ row = Fin.ofNat 32 y ∧ col = Fin.ofNat 64 (x0 + c) ∧ b.getLsbD (7 - c) = true :=
        ⟨n, by omega, h.2.1, h.2.2, h.1⟩
      rw [iff_true_right hno] at ih
      rw [decide_eq_true h, Bool.xor_true, Bool.not_eq_true', iff_false_right (not_not_intro hyes), ← ih, Bool.not_eq_true]
    · have : (∃ c, c < n + 1 ∧ row = Fin.ofNat 32 y ∧ col = Fin.ofNat 64 (x0 + c) ∧ b.getLsbD (7 - c) = true) ↔
          ∃ c, c < n ∧ row = Fin.ofNat 32 y ∧ col = Fin.ofNat 64 (x0 + c) ∧ b.getLsbD (7 - c) = true := by
        constructor
        · rintro ⟨c, hc, h1, h2, h3⟩
          rcases Nat.lt_succ_iff_lt_or_eq.1 hc with hc | rfl
          · exact ⟨c, hc, h1, h2, h3⟩
          · exact absurd ⟨h3, h1, h2⟩ h
        · rintro ⟨c, hc, h1⟩
          exact ⟨c, by omega, h1⟩
      rw [this, ← ih, decide_eq_false h, Bool.xor_false]

/-- After the first `n` bits of a sprite row, the hit flag is set if it was, or if a pixel under one of its 1-bits was lit. -/
theorem foldl_drawBit_hit (x0 y : Nat) (b : Byte) (p : Canvas) (n : Nat) (hn : n ≤ 64) :
    ((List.range n).foldl (drawBit x0 y b) p).hit = true ↔
      (p.hit = true ∨
        ∃ c, c < n ∧ b.getLsbD (7 - c) = true ∧ p.fb.pixel (Fin.ofNat 32 y) (Fin.ofNat 64 (x0 + c)) = true) := by
  induction n with
  | zero => simp
  | succ n ih =>
    have ih := ih (by omega)
    have hp := foldl_drawBit_pixel x0 y b p (Fin.ofNat 32 y) (Fin.ofNat 64 (x0 + n)) n (by omega)
    have hno : ¬ ∃ c, c < n ∧ Fin.ofNat 32 y = Fin.ofNat 32 y ∧ Fin.ofNat 64 (x0 + n) = Fin.ofNat 64 (x0 + c) ∧
        b.getLsbD (7 - c) = true := by
      rintro ⟨c, hc, -, e, -⟩
      have := ofNat_add_inj (by omega) (by omega) e
      omega
    rw [iff_true_right hno] at hp
    rw [List.range_succ, List.foldl_append, List.foldl_cons, List.foldl_nil, drawBit_hit, Bool.or_eq_true, ih,
      Bool.and_eq_true, hp]
    constructor
    · rintro ((h | ⟨c, hc, h⟩) | h)
      · exact .inl h
      · exact .inr ⟨c, by omega, h⟩
      · exact .inr ⟨n, by omega, h⟩
    · rintro (h | ⟨c, hc, h⟩)
      · exact .inl (.inl h)
      · rcases Nat.lt_succ_iff_lt_or_eq.1 hc with hc | rfl
        · exact .inl (.inr ⟨c, hc, h⟩)
        · exact .inr h

/-- The rows of a sprite flip exactly the pixels under its 1-bits, both axes wrapping (R131, R132). -/
theorem drawRows_pixel (x0 y : Nat) (bs : List Byte) (p : Canvas) (row : Fin 32) (col : Fin 64) (hb : bs.length ≤ 32) :
    (drawRows x0 y bs p).fb.pixel row col = true ↔
      (p.fb.pixel row col = true ↔
        ¬ ∃ r c, r < bs.length ∧ c < 8 ∧ row = Fin.ofNat 32 (y + r) ∧ col = Fin.ofNat 64 (x0 + c) ∧
          (bs.getD r 0).getLsbD (7 - c) = true) := by
  induction bs generalizing y p with
  | nil => simp [drawRows]
  | cons b bs ih =>
    rw [List.length_cons] at hb
    rw [drawRows, ih _ _ (by omega), drawRow, foldl_drawBit_pixel _ _ _ _ _ _ _ (by omega)]
    have split : (∃ r c, r < (b :: bs).length ∧ c < 8 ∧ row = Fin.ofNat 32 (y + r) ∧ col = Fin.ofNat 64 (x0 + c) ∧
        ((b :: bs).getD r 0).getLsbD (7 - c) = true) ↔
        (∃ c, c < 8 ∧ row = Fin.ofNat 32 y ∧ col = Fin.ofNat 64 (x0 + c) ∧ b.getLsbD (7 - c) = true) ∨
        ∃ r c, r < bs.length ∧ c < 8 ∧ row = Fin.ofNat 32 (y + 1 + r) ∧ col = Fin.ofNat 64 (x0 + c) ∧
          (bs.getD r 0).getLsbD (7 - c) = true := by
      constructor
      · rintro ⟨r, c, hr, hc, h1, h2, h3⟩
        cases r with
        | zero => exact .inl ⟨c, hc, h1, h2, by simpa using h3⟩
        | succ r =>
          exact .inr ⟨r, c, by simpa using hr, hc, by rw [h1]; congr 1; omega, h2, by simpa using h3⟩
      · rintro (⟨c, hc, h1, h2, h3⟩ | ⟨r, c, hr, hc, h1, h2, h3⟩)
        · exact ⟨0, c, by simp, hc, h1, h2, by simpa using h3⟩
        · exact ⟨r + 1, c, by simpa using hr, hc, by rw [h1]; congr 1; omega, h2, by simpa using h3⟩
    have excl : (∃ c, c < 8 ∧ row = Fin.ofNat 32 y ∧ col = Fin.ofNat 64 (x0 + c) ∧ b.getLsbD (7 - c) = true) →
        ¬ ∃ r c, r < bs.length ∧ c < 8 ∧ row = Fin.ofNat 32 (y + 1 + r) ∧ col = Fin.ofNat 64 (x0 + c) ∧
          (bs.getD r 0).getLsbD (7 - c) = true := by
      rintro ⟨c, -, h1, -⟩ ⟨r, -, hr, -, h2, -⟩
      have e : Fin.ofNat 32 (y + 0) = Fin.ofNat 32 (y + (1 + r)) := by rw [Nat.add_zero, ← Nat.add_assoc]; exact h1.symm.trans h2
      have := ofNat_add_inj (by omega) (by omega) e
      omega
    rw [split]
    exact flip_twice excl

/-- The hit flag of a sprite: a pixel under one of its 1-bits was lit before the draw (R131). -/
theorem drawRows_hit (x0 y : Nat) (bs : List Byte) (p : Canvas) (hb : bs.length ≤ 32) :
    (drawRows x0 y bs p).hit = true ↔
      (p.hit = true ∨ ∃ r c, r < bs.length ∧ c < 8 ∧ (bs.getD r 0).getLsbD (7 - c) = true ∧
        p.fb.pixel (Fin.ofNat 32 (y + r)) (Fin.ofNat 64 (x0 + c)) = true) := by
  induction bs generalizing y p with
  | nil => simp [drawRows]
  | cons b bs ih =>
    rw [List.length_cons] at hb
    rw [drawRows, ih _ _ (by omega), drawRow, foldl_drawBit_hit _ _ _ _ _ (by omega)]
    have keep : ∀ r c, r < bs.length →
        (((List.range 8).foldl (drawBit x0 y b) p).fb.pixel (Fin.ofNat 32 (y + 1 + r)) (Fin.ofNat 64 (x0 + c)) = true ↔
          p.fb.pixel (Fin.ofNat 32 (y + 1 + r)) (Fin.ofNat 64 (x0 + c)) = true) := by
      intro r c hr
      rw [foldl_drawBit_pixel _ _ _ _ _ _ _ (by omega)]
      have : ¬ ∃ c', c' < 8 ∧ Fin.ofNat 32 (y + 1 + r) = Fin.ofNat 32 y ∧ Fin.ofNat 64 (x0 + c) = Fin.ofNat 64 (x0 + c') ∧
          b.getLsbD (7 - c') = true := by
        rintro ⟨c', -, e, -⟩
        have e : Fin.ofNat 32 (y + (1 + r)) = Fin.ofNat 32 (y + 0) := by rw [Nat.add_zero, ← Nat.add_assoc]; exact e
        have := ofNat_add_inj (by omega) (by omega) e
        omega
      rw [iff_true_right this]
    constructor
    · rintro ((h | ⟨c, hc, h1, h2⟩) | ⟨r, c, hr, hc, h1, h2⟩)
      · exact .inl h
      · exact .inr ⟨0, c, by simp, hc, by simpa using h1, h2⟩
      · refine .inr ⟨r + 1, c, by simpa using hr, hc, by simpa using h1, ?_⟩
        have e : y + (r + 1) = y + 1 + r := by omega
        rw [e]; exact (keep r c hr).1 h2
    · rintro (h | ⟨r, c, hr, hc, h1, h2⟩)
      · exact .inl (.inl h)
      · cases r with
        | zero => exact .inl (.inr ⟨c, hc, by simpa using h1, h2⟩)
        | succ r =>
          have hr' : r < bs.length := by simpa using hr
          have e : y + (r + 1) = y + 1 + r := by omega
          rw [e] at h2
          exact .inr ⟨r, c, hr', hc, by simpa using h1, (keep r c hr').2 h2⟩

end Sys2Proof.Machine
end

