-- ==== Sys2Proof/Tests/Slice0.lean ====
section
/-! SUPPORT. Tests of the model: the checks of WellFormed refuse what they should; every constructor's decoding from a word written out from the
spec; single steps from spec/95_test_vectors.md (each test names its vectors); and for every obligation with hypotheses a state and operands
that meet them. Expected values are the spec's. -/

namespace Sys2Proof.Tests.Slice0

open Sys2Proof.Machine Sys2Proof.Safety

/-! ### Helpers -/

/-- A predicate holds of the next state, and there is one. -/
def after (r : Result) (p : State → Bool) : Bool :=
  match r with
  | .next t => p t
  | .fault _ => false
  | .refused _ => false

/-- The reset state with some registers given. -/
def regs (l : List (Reg × Byte)) : State := l.foldl (fun s p => s.writeV p.1 p.2) State.reset

/-- One cycle of the word at pc with no key held and random byte 0. -/
def run (w : Word) (s : State) : Result := cycle 0 0 (s.placeWord w)

/-- One cycle of the word at pc with the inputs given. -/
def runWith (keys : BitVec 16) (rnd : Byte) (w : Word) (s : State) : Result := cycle keys rnd (s.placeWord w)

/-- Bytes put in memory. -/
def poke (a : Nat) (bs : List Byte) (s : State) : State := { s with mem := s.mem.writeBytes a bs }

/-- The framebuffer with exactly the listed pixels lit, each as (column, row). -/
def lit (l : List (Nat × Nat)) : Framebuffer :=
  l.foldl (fun fb p => fb.flip (Fin.ofNat 32 p.2) (Fin.ofNat 64 p.1)) Framebuffer.clear

/-- The bytes of memory from `a` on. -/
def bytesAt (s : State) (a n : Nat) : List Byte := s.mem.readBytes a n

/-- `sp` entries in use, the newest holding `w`. -/
def withStack (sp : Fin 17) (k : Fin 16) (w : Word) (s : State) : State := { s with sp := sp, stack := s.stack.set k.val w k.isLt }

/-! ### WellFormed: an ill-formed term is refused -/

theorem test_unmatched_may_not_spell_an_instruction :
    (Instr.unmatched 0x00E0).wellFormed = false ∧ (Instr.unmatched 0x1ABC).wellFormed = false ∧
    (Instr.unmatched 0x8ABE).wellFormed = false ∧ (Instr.unmatched 0xE09E).wellFormed = false := by decide

theorem test_unmatched_words_are_well_formed :
    (Instr.unmatched 0x0000).wellFormed = true ∧ (Instr.unmatched 0x5001).wellFormed = true ∧
    (Instr.unmatched 0x8AB8).wellFormed = true ∧ (Instr.unmatched 0xF000).wellFormed = true := by decide

/-! ### Decoding: every constructor, from words spelled out from 30_encoding.md R75 to R80 -/

theorem test_decode_class_0_to_4 :
    decode 0x00E0 = .clearScreen ∧ decode 0x00EE = .ret ∧ decode 0x1ABC = .jump 0xABC ∧ decode 0x2ABC = .call 0xABC ∧
    decode 0x332A = .skipEqImm 3 0x2A ∧ decode 0x432B = .skipNeImm 3 0x2B := by decide

theorem test_decode_class_5_6_7_9 :
    decode 0x5120 = .skipEqReg 1 2 ∧ decode 0x6AFF = .loadImm 0xA 0xFF ∧ decode 0x7102 = .addImm 1 0x02 ∧
    decode 0x9120 = .skipNeReg 1 2 := by decide

theorem test_decode_class_8 :
    decode 0x8120 = .loadReg 1 2 ∧ decode 0x8121 = .orReg 1 2 ∧ decode 0x8122 = .andReg 1 2 ∧ decode 0x8123 = .xorReg 1 2 ∧
    decode 0x8124 = .addReg 1 2 ∧ decode 0x8125 = .subReg 1 2 ∧ decode 0x8126 = .shiftRight 1 2 ∧
    decode 0x8127 = .subnReg 1 2 ∧ decode 0x8ABE = .shiftLeft 0xA 0xB := by decide

theorem test_decode_class_A_to_D :
    decode 0xA300 = .loadIndex 0x300 ∧ decode 0xBFFF = .jumpOffset 0xFFF ∧ decode 0xC30F = .random 3 0x0F ∧
    decode 0xD125 = .draw 1 2 5 := by decide

theorem test_decode_class_E_F :
    decode 0xE49E = .skipKeyPressed 4 ∧ decode 0xE4A1 = .skipKeyNotPressed 4 ∧ decode 0xF207 = .getDelay 2 ∧
    decode 0xF10A = .waitKey 1 ∧ decode 0xF015 = .setDelay 0 ∧ decode 0xF118 = .setSound 1 ∧ decode 0xF21E = .addIndex 2 ∧
    decode 0xF029 = .fontAddress 0 ∧ decode 0xF033 = .storeBcd 0 ∧ decode 0xF355 = .storeRegs 3 ∧
    decode 0xF565 = .loadRegs 5 := by decide

/-- T-E3, T-E5, T-E6, T-E8, T-E10, T-C18, S2. -/
theorem test_decode_unmatched :
    decode 0x8AB8 = .unmatched 0x8AB8 ∧ decode 0x01E0 = .unmatched 0x01E0 ∧ decode 0x00EF = .unmatched 0x00EF ∧
    decode 0xE09F = .unmatched 0xE09F ∧ decode 0xF575 = .unmatched 0xF575 ∧ decode 0x9121 = .unmatched 0x9121 ∧
    decode 0xF000 = .unmatched 0xF000 ∧ decode 0x0000 = .unmatched 0x0000 := by decide

/-- R71: the byte at the lower address is the more significant. -/
theorem test_decode_bytes : decodeBytes [0xD1, 0x25, 0x12] = .ok (.draw 1 2 5, [0x12]) ∧ decodeBytes [0xD1] = .error .truncated := by
  decide

theorem test_decode_table_word : decodeTableWord 16 0xD125 = some (.draw 1 2 5) ∧ decodeTableWord 24 0xD125 = none := by decide

/-- The word that the host places is fetched and run by the next cycle, whatever pc and the latch were. -/
theorem test_with_fetch_word :
    nextInstr (State.reset.withFetchWord 16 0x6A42) = some (.loadImm 0xA 0x42) ∧
    nextInstr ({ State.reset with pc := 0x1234, fault := some ⟨.fetchRange, 0x1234⟩ }.withFetchWord 16 0xD125) = some (.draw 1 2 5) ∧
    ({ State.reset with fault := some ⟨.fetchRange, 0x1234⟩ }.withFetchWord 16 0xD125).fault = none := by
  refine ⟨?_, ?_, rfl⟩ <;> exact nextInstr_placeWord _ _

/-! ### Control flow (95_test_vectors.md 2.1) -/

/-- T-C1. -/
theorem test_jump : after (run 0x1ABC State.reset) (fun t => t.pc == 0x0ABC) = true := by decide
/-- T-C5. -/
theorem test_call_last_entry :
    after (run 0x2ABC (withStack 15 0 0x0300 State.reset)) (fun t => t.stack[15] == 0x0202 && t.sp == 16 && t.pc == 0x0ABC) = true := by
  decide
/-- T-C6. -/
theorem test_call_overflow :
    after (run 0x2ABC (withStack 16 0 0x0300 State.reset))
      (fun t => t.fault == some ⟨.stackOverflow, 0x0200⟩ && t.sp == 16 && t.pc == 0x0200) = true := by decide
/-- T-C7. -/
theorem test_return :
    after (run 0x00EE (withStack 1 0 0x0206 State.reset)) (fun t => t.sp == 0 && t.pc == 0x0206 && t.stack[0] == 0x0206) = true := by
  decide
/-- T-C8. -/
theorem test_return_underflow :
    after (run 0x00EE State.reset) (fun t => t.fault == some ⟨.stackUnderflow, 0x0200⟩ && t.sp == 0 && t.pc == 0x0200) = true := by
  decide
/-- T-C9, T-C10. -/
theorem test_skip_eq_imm :
    after (run 0x332A (regs [(3, 0x2A)])) (fun t => t.pc == 0x0204) = true ∧
    after (run 0x332B (regs [(3, 0x2A)])) (fun t => t.pc == 0x0202) = true := by decide
/-- T-C11, T-C12. -/
theorem test_skip_ne_imm :
    after (run 0x432A (regs [(3, 0x2A)])) (fun t => t.pc == 0x0202) = true ∧
    after (run 0x432B (regs [(3, 0x2A)])) (fun t => t.pc == 0x0204) = true := by decide
/-- T-C13, T-C14. -/
theorem test_skip_eq_reg :
    after (run 0x5120 (regs [(1, 7), (2, 7)])) (fun t => t.pc == 0x0204) = true ∧
    after (run 0x5120 (regs [(1, 7), (2, 8)])) (fun t => t.pc == 0x0202) = true := by decide
/-- T-C16, T-C17. -/
theorem test_skip_ne_reg :
    after (run 0x9120 (regs [(1, 7), (2, 8)])) (fun t => t.pc == 0x0204) = true ∧
    after (run 0x9120 (regs [(1, 7), (2, 7)])) (fun t => t.pc == 0x0202) = true := by decide
/-- T-C20. -/
theorem test_jump_offset_uses_v0 :
    after (run 0xB300 (regs [(0, 0x04), (3, 0x50)])) (fun t => t.pc == 0x0304) = true := by decide
/-- T-C21. -/
theorem test_jump_offset_not_reduced : after (run 0xBFFF (regs [(0, 0xFF)])) (fun t => t.pc == 0x10FE) = true := by decide
/-- S2: `5001` with DT = 3 and key 0 held: steps 1 and 2 still run. -/
theorem test_unmatched :
    after (runWith 0x0001 0 0x5001 { State.reset with dt := 3 }) (fun t => t.pc == 0x0202 && t.dt == 2 && t.keyHeld 0) = true := by
  decide

/-! ### ALU (2.2) -/

/-- T-A1, T-A2. -/
theorem test_load_imm :
    after (run 0x6AFF State.reset) (fun t => t.readV 0xA == 0xFF && t.readV VF == 0) = true ∧
    after (run 0x6F07 State.reset) (fun t => t.readV VF == 7) = true := by decide
/-- T-A3, T-A5. -/
theorem test_add_imm :
    after (run 0x7102 (regs [(1, 0xFF)])) (fun t => t.readV 1 == 1 && t.readV VF == 0) = true ∧
    after (run 0x7F01 (regs [(VF, 0xFF)])) (fun t => t.readV VF == 0) = true := by decide
/-- T-A6. -/
theorem test_load_reg : after (run 0x8120 (regs [(2, 0x7E)])) (fun t => t.readV 1 == 0x7E && t.readV 2 == 0x7E) = true := by decide
/-- T-A7. -/
theorem test_or :
    after (run 0x8121 (regs [(1, 0xF0), (2, 0x0F), (VF, 9)])) (fun t => t.readV 1 == 0xFF && t.readV VF == 9) = true := by decide
/-- T-A8. -/
theorem test_and :
    after (run 0x8122 (regs [(1, 0xF0), (2, 0x3C), (VF, 9)])) (fun t => t.readV 1 == 0x30 && t.readV VF == 9) = true := by decide
/-- T-A9, T-A10. -/
theorem test_xor :
    after (run 0x8123 (regs [(1, 0xF0), (2, 0x3C), (VF, 9)])) (fun t => t.readV 1 == 0xCC && t.readV VF == 9) = true ∧
    after (run 0x8113 (regs [(1, 0x5A)])) (fun t => t.readV 1 == 0) = true := by decide
/-- T-A11, T-A12, T-A13. -/
theorem test_add_reg :
    after (run 0x8124 (regs [(1, 0xFF), (2, 1)])) (fun t => t.readV 1 == 0 && t.readV VF == 1) = true ∧
    after (run 0x8124 (regs [(1, 0x80), (2, 0x7F), (VF, 1)])) (fun t => t.readV 1 == 0xFF && t.readV VF == 0) = true ∧
    after (run 0x8114 (regs [(1, 0x90)])) (fun t => t.readV 1 == 0x20 && t.readV VF == 1) = true := by decide
/-- T-A14, T-A16: the flag wins over the sum, and the old VF is the operand. -/
theorem test_add_reg_with_VF :
    after (run 0x8F24 (regs [(VF, 0x10), (2, 0x20)])) (fun t => t.readV VF == 0) = true ∧
    after (run 0x81F4 (regs [(1, 5), (VF, 7)])) (fun t => t.readV 1 == 12 && t.readV VF == 0) = true := by decide
/-- T-A19, T-A20. -/
theorem test_sub_reg :
    after (run 0x8125 (regs [(1, 3), (2, 5)])) (fun t => t.readV 1 == 0xFE && t.readV VF == 0) = true ∧
    after (run 0x8125 (regs [(1, 5), (2, 5), (VF, 1)])) (fun t => t.readV 1 == 0 && t.readV VF == 0) = true := by decide
/-- T-A21, T-A22. -/
theorem test_sub_reg_with_VF :
    after (run 0x8F25 (regs [(VF, 9), (2, 4)])) (fun t => t.readV VF == 1) = true ∧
    after (run 0x81F5 (regs [(1, 9), (VF, 4)])) (fun t => t.readV 1 == 5 && t.readV VF == 1) = true := by decide
/-- T-A23, T-A26. -/
theorem test_shift_right :
    after (run 0x8126 (regs [(1, 0x81), (2, 0x55)])) (fun t => t.readV 1 == 0x40 && t.readV VF == 1 && t.readV 2 == 0x55) = true ∧
    after (run 0x8F26 (regs [(VF, 2)])) (fun t => t.readV VF == 0) = true := by decide
/-- T-A27, T-A28, T-A29. -/
theorem test_subn_reg :
    after (run 0x8127 (regs [(1, 3), (2, 5)])) (fun t => t.readV 1 == 2 && t.readV VF == 1) = true ∧
    after (run 0x8127 (regs [(1, 5), (2, 3)])) (fun t => t.readV 1 == 0xFE && t.readV VF == 0) = true ∧
    after (run 0x8127 (regs [(1, 5), (2, 5), (VF, 1)])) (fun t => t.readV 1 == 0 && t.readV VF == 0) = true := by decide
/-- T-A30, T-A31, T-A33. -/
theorem test_shift_left :
    after (run 0x812E (regs [(1, 0x81)])) (fun t => t.readV 1 == 0x02 && t.readV VF == 1) = true ∧
    after (run 0x812E (regs [(1, 0x40), (VF, 1)])) (fun t => t.readV 1 == 0x80 && t.readV VF == 0) = true ∧
    after (run 0x8F2E (regs [(VF, 0x7F)])) (fun t => t.readV VF == 0) = true := by decide
/-- T-A34. -/
theorem test_random : after (runWith 0 0xA7 0xC30F State.reset) (fun t => t.readV 3 == 0x07) = true := by decide
/-- T-A35, for the free byte of a step, whatever it is. -/
theorem test_random_in_a_step :
    ∃ t, Sys2Proof.Machine.step (State.reset.withFetchWord 16 0xC300) = .next t ∧ t.readV 3 = Config.rndIn 1 &&& 0x00 := ⟨_, rfl, rfl⟩

/-! ### Display (2.3) -/

/-- T-D1. -/
theorem test_clear_screen :
    after (run 0x00E0 { regs [(VF, 1)] with fb := lit [(0, 0), (63, 31)] })
      (fun t => t.fb == lit [] && t.readV VF == 1 && t.pc == 0x0202) = true := by decide

/-- The state of T-D5. -/
def sprite5 : State := { poke 0x300 [0xF0, 0x90] (regs [(1, 62), (2, 31)]) with i := 0x0300 }

/-- T-D5: both axes wrap and bit 7 is leftmost. -/
theorem test_draw_wraps :
    after (run 0xD122 sprite5)
      (fun t => t.fb == lit [(62, 31), (63, 31), (0, 31), (1, 31), (62, 0), (1, 0)] && t.readV VF == 0) = true := by decide
/-- T-D6: the origin is reduced modulo 64 and 32. T-D7: one pixel going unlit is a collision. -/
theorem test_draw_origin_and_collision :
    after (run 0xD011 { poke 0x300 [0xFF] (regs [(0, 70), (1, 33)]) with i := 0x0300 })
      (fun t => t.fb == lit [(6, 1), (7, 1), (8, 1), (9, 1), (10, 1), (11, 1), (12, 1), (13, 1)] && t.readV VF == 0) = true ∧
    after (run 0xD011 { poke 0x300 [0xC0] State.reset with i := 0x0300, fb := lit [(1, 0)] })
      (fun t => t.fb == lit [(0, 0)] && t.readV VF == 1) = true := by decide
/-- T-D9, T-D10, T-D11. -/
theorem test_draw_range :
    after (run 0xD010 { regs [(VF, 1)] with i := 0xFFFF }) (fun t => t.readV VF == 0 && t.fault == none && t.fb == lit []) = true ∧
    after (run 0xD012 { regs [(VF, 9)] with i := 0x0FFF })
      (fun t => t.fault == some ⟨.dataRange, 0x0FFF⟩ && t.readV VF == 9 && t.pc == 0x0200 && t.fb == lit []) = true ∧
    after (run 0xD011 { poke 0xFFF [0x80] State.reset with i := 0x0FFF })
      (fun t => t.fb == lit [(0, 0)] && t.readV VF == 0 && t.fault == none) = true := by decide
/-- T-D12: the coordinate is the old VF. -/
theorem test_draw_at_VF :
    after (run 0xDF01 { poke 0x300 [0x80] (regs [(VF, 5), (0, 2)]) with i := 0x0300 })
      (fun t => t.fb == lit [(5, 2)] && t.readV VF == 0) = true := by decide

/-! ### Index register, BCD and blocks (2.4) -/

/-- T-M2. -/
theorem test_load_index : after (run 0xAFFF State.reset) (fun t => t.i == 0x0FFF) = true := by decide
/-- T-M3, T-M4. -/
theorem test_add_index :
    after (run 0xF21E { regs [(2, 5)] with i := 0x0FFE }) (fun t => t.i == 0x1003 && t.readV VF == 0) = true ∧
    after (run 0xF21E { regs [(2, 2)] with i := 0xFFFF }) (fun t => t.i == 0x0001) = true := by decide
/-- T-M5d: no mask; 255 gives FONT_BASE + 1275. -/
theorem test_font_address : fontAddress 0xFF = BitVec.ofNat 16 Config.fontBase.val + 1275 := rfl
/-- S3, T-B5. -/
theorem test_store_bcd :
    after (run 0xF033 { regs [(0, 0x9D)] with i := 0x0300 }) (fun t => bytesAt t 0x300 3 == [1, 5, 7] && t.i == 0x0300) = true ∧
    after (run 0xF033 { regs [(0, 42)] with i := 0x0FFD }) (fun t => bytesAt t 0xFFD 3 == [0, 4, 2] && t.fault == none) = true := by
  decide
/-- T-B6. -/
theorem test_store_bcd_range :
    after (run 0xF033 { regs [(0, 42)] with i := 0x0FFE })
      (fun t => t.fault == some ⟨.dataRange, 0x0FFE⟩ && bytesAt t 0xFFE 2 == [0, 0] && t.pc == 0x0200) = true := by decide
/-- T-M6, its first half. -/
theorem test_store_regs :
    after (run 0xF355 { regs [(0, 0x11), (1, 0x22), (2, 0x33), (3, 0x44), (4, 0x55)] with i := 0x0400 })
      (fun t => bytesAt t 0x400 5 == [0x11, 0x22, 0x33, 0x44, 0] && t.i == 0x0400) = true := by decide
/-- T-M7, T-M8. -/
theorem test_store_regs_range :
    after (run 0xF055 { regs [(0, 0xAB)] with i := 0x0FFF }) (fun t => bytesAt t 0xFFF 1 == [0xAB] && t.fault == none) = true ∧
    after (run 0xF155 { regs [(0, 0xAB)] with i := 0x0FFF })
      (fun t => t.fault == some ⟨.dataRange, 0x0FFF⟩ && bytesAt t 0xFFF 1 == [0]) = true := by decide
/-- T-M6, its second half. -/
theorem test_load_regs :
    after (run 0xF365 { poke 0x400 [0x11, 0x22, 0x33, 0x44, 0x55] State.reset with i := 0x0400 })
      (fun t => t.readV 0 == 0x11 && t.readV 1 == 0x22 && t.readV 2 == 0x33 && t.readV 3 == 0x44 && t.readV 4 == 0) = true := by
  decide
/-- T-M10, T-M12. -/
theorem test_load_regs_range :
    after (run 0xFF65 { regs [(3, 7)] with i := 0x0FF1 }) (fun t => t.fault == some ⟨.dataRange, 0x0FF1⟩ && t.readV 3 == 7) = true ∧
    after (run 0xF065 { State.reset with i := 0x1003 }) (fun t => t.fault == some ⟨.dataRange, 0x1003⟩) = true := by decide

/-! ### Timers and keypad (2.5) -/

/-- T-T3, T-T4. -/
theorem test_get_delay :
    after (run 0xF207 { State.reset with dt := 1 }) (fun t => t.dt == 0 && t.readV 2 == 0) = true ∧
    after (run 0xF207 { State.reset with dt := 5 }) (fun t => t.dt == 4 && t.readV 2 == 4) = true := by decide
/-- T-T6. -/
theorem test_set_delay : after (run 0xF015 { State.reset with dt := 9 }) (fun t => t.dt == 0) = true := by decide
/-- T-T5, its first cycle. -/
theorem test_set_sound : after (run 0xF118 (regs [(1, 2)])) (fun t => t.st == 2 && t.soundActive) = true := by decide
/-- T-K1, T-K2, T-K7. -/
theorem test_skip_key_pressed :
    after (runWith 0x0080 0 0xE49E (regs [(4, 7)])) (fun t => t.pc == 0x0204) = true ∧
    after (runWith 0xFF7F 0 0xE49E (regs [(4, 7)])) (fun t => t.pc == 0x0202) = true ∧
    after (runWith 0x8000 0 0xE49E (regs [(4, 15)])) (fun t => t.pc == 0x0204) = true := by decide
/-- T-K5. -/
theorem test_skip_key_pressed_range :
    after (run 0xE49E (regs [(4, 16)])) (fun t => t.fault == some ⟨.keyRange, 0x0010⟩ && t.pc == 0x0200) = true := by decide
/-- T-K3, T-K4. -/
theorem test_skip_key_not_pressed :
    after (runWith 0x0080 0 0xE4A1 (regs [(4, 7)])) (fun t => t.pc == 0x0202) = true ∧
    after (runWith 0x0000 0 0xE4A1 (regs [(4, 7)])) (fun t => t.pc == 0x0204) = true := by decide
/-- T-K6. -/
theorem test_skip_key_not_pressed_range :
    after (run 0xE4A1 (regs [(4, 0xFF)])) (fun t => t.fault == some ⟨.keyRange, 0x00FF⟩) = true := by decide
/-- T-K13. -/
theorem test_wait_key_waits :
    after (run 0xF10A { regs [(1, 0x77)] with dt := 4, st := 1 })
      (fun t => t.pc == 0x0200 && t.readV 1 == 0x77 && t.dt == 3 && t.st == 0) = true := by decide
/-- T-K9, T-K12. -/
theorem test_wait_key_takes_the_least :
    after (runWith 0x0088 0 0xF10A State.reset) (fun t => t.readV 1 == 3 && t.key == 0x0080 && t.pc == 0x0202) = true ∧
    after (runWith 0x0020 0 0xFF0A State.reset) (fun t => t.readV VF == 5) = true := by decide

/-! ### Fetch, faults, reset (2.7, 2.8) -/

/-- T-F1. -/
theorem test_fetch_at_the_last_word :
    after (run 0x6005 { State.reset with pc := 0x0FFE }) (fun t => t.readV 0 == 5 && t.pc == 0x1000 && t.fault == none) = true := by
  decide
/-- T-F2, T-F4. -/
theorem test_fetch_range :
    after (cycle 0x0001 0 { State.reset with pc := 0x1000, dt := 3 })
      (fun t => t.fault == some ⟨.fetchRange, 0x1000⟩ && t.dt == 2 && t.keyHeld 0 && t.pc == 0x1000) = true ∧
    after (cycle 0 0 { State.reset with pc := 0x0FFF }) (fun t => t.fault == some ⟨.fetchRange, 0x0FFF⟩) = true := by decide
/-- T-F3. -/
theorem test_frozen :
    after (cycle 0x0002 7 { State.reset with dt := 2, key := 1, fault := some ⟨.fetchRange, 0x1000⟩ })
      (fun t => t == { State.reset with dt := 2, key := 1, fault := some ⟨.fetchRange, 0x1000⟩ }) = true := by decide
/-- T-E11: an odd pc fetches across two words. -/
theorem test_odd_pc : nextInstr { poke 0x200 [0x60, 0x05, 0x60, 0x0A] State.reset with pc := 0x0201 } = some (.unmatched 0x0560) := by
  decide
/-- T-R1, T-R5: the image lands at 0x200, the first byte lowest. -/
theorem test_rom_load : after (loadRom [0x60, 0x05, 0x12]) (fun t => bytesAt t 0x200 4 == [0x60, 0x05, 0x12, 0] && t.pc == 0x0200) = true := by
  decide
/-- T-R6: the default font at 0x050. -/
theorem test_font_image :
    (List.range 5).map (fun j => fontImage 0x050 defaultFontData (0x050 + j)) = [0xF0, 0x90, 0x90, 0x90, 0xF0] ∧
    (List.range 5).map (fun j => fontImage 0x050 defaultFontData (0x09B + j)) = [0xF0, 0x80, 0xF0, 0x80, 0x80] ∧
    fontImage 0x050 defaultFontData 0x04F = 0 ∧ fontImage 0x050 defaultFontData 0x0A0 = 0 := by decide
/-- P7: with the default font as a premise, glyph 7 starts F0 10 after reset; another font is stated the same way. -/
theorem test_default_font_as_a_premise (h : Config.fontData = defaultFontData) :
    State.reset.readMem (Config.fontBase.val + 35) = 0xF0 ∧ State.reset.readMem (Config.fontBase.val + 36) = 0x10 := by
  have h0 : State.reset.readMem (Config.fontBase.val + 35) = Config.fontData[35] := Memory.initial_fontBase_add 35
  have h1 : State.reset.readMem (Config.fontBase.val + 36) = Config.fontData[36] := Memory.initial_fontBase_add 36
  rw [h0, h1, h]
  decide
/-- The step is the cycle with the free inputs, and the first step from reset with nothing placed runs the unmatched word 0x0000 (T-R4). -/
theorem test_first_step : ∃ t, Sys2Proof.core.step Sys2Proof.core.reset = .next t ∧ t.pc = 0x0202 ∧ t.fault = none := ⟨_, rfl, rfl, rfl⟩

/-! ### Witnesses: for every obligation with hypotheses, a state and operands that meet them together, at the boundaries of each clause -/

/-- A core about to run the word at pc. -/
def loaded (w : Word) (s : State) : State := s.placeWord w

/-- `ResetLeavesTheStatedState`: images at and beyond the limit, a byte of the image, an address outside font and image. -/
theorem witness_reset_rom :
    (List.replicate 3584 (0xAB : Byte)).length ≤ 3584 ∧ 3583 < (List.replicate 3584 (0xAB : Byte)).length ∧
    3584 < (List.replicate 3585 (0xAB : Byte)).length ∧
    (0xFFF < 4096 ∧ ¬ (Config.fontBase.val ≤ 0xFFF ∧ 0xFFF < Config.fontBase.val + 80) ∧
      ¬ (0x200 ≤ 0xFFF ∧ 0xFFF < 0x200 + ([] : List Byte).length)) := by
  have := Config.fontBase.isLt
  simp only [List.length_replicate, List.length_nil]
  omega

/-- A healthy core inside a subroutine. -/
def insideCall : State := withStack 1 0 0x0206 State.reset

/-- A healthy core whose fetch faulted. -/
def fetchFaulted : State := { State.reset with pc := 0x0FFF, fault := some ⟨.fetchRange, 0x0FFF⟩ }

/-- `EveryStepKeepsTheInvariant`: a running and a faulted core that meet the invariant, each with its next state. -/
theorem witness_healthy_running :
    Healthy insideCall ∧ (∃ t, Sys2Proof.Machine.step insideCall = .next t) ∧ ∃ t, cycle 0x0001 0xA7 insideCall = .next t :=
  ⟨⟨State.reset_mem_wf, by decide, by decide, fun f h => by cases h⟩, ⟨_, rfl⟩, ⟨_, rfl⟩⟩

theorem witness_healthy_faulted :
    Healthy fetchFaulted ∧ (∃ t, Sys2Proof.Machine.step fetchFaulted = .next t) ∧ ∃ t, cycle 0x0001 0xA7 fetchFaulted = .next t :=
  ⟨⟨State.reset_mem_wf, by decide, by decide, fun f h => by cases h; rfl⟩, ⟨_, rfl⟩, ⟨_, rfl⟩⟩

/-- `DecodeOfEncodeIsTheInstruction`: well-formed instructions with operands, and a well-formed unmatched word. -/
theorem witness_well_formed :
    (Instr.draw 0xD 0xE 0xF).wellFormed = true ∧ (Instr.jump 0xFFF).wellFormed = true ∧ (Instr.unmatched 0xFFFF).wellFormed = true := by
  decide

/-- `TableRowsNeverOverlapAndDecodeFollowsThem`: a word that selects a row of the table. -/
theorem witness_row_selected :
    (⟨"jump", 0xF000, 0x1000⟩ : Row) ∈ rows ∧ (⟨"jump", 0xF000, 0x1000⟩ : Row).selects 0x1ABC = true := by decide

/-- `AStepRunsTheDecodedInstruction`: a core that runs, at the last address a word can be fetched from. -/
theorem witness_runs : ({ State.reset with pc := 0x0FFE } : State).fault = none ∧ (0x0FFE : Word).toNat ≤ 0x0FFE := by decide

/-- `UnmatchedWordsOnlyAdvance`: a running core at an unmatched word. -/
theorem witness_unmatched : (loaded 0x5001 State.reset).fault = none ∧ nextInstr (loaded 0x5001 State.reset) = some (.unmatched 0x5001) :=
  ⟨rfl, nextInstr_placeWord _ _⟩

/-- `AFaultedCoreIsFrozen` and the first clause of `AStepRunsTheDecodedInstruction`. -/
theorem witness_frozen : fetchFaulted.fault = some ⟨.fetchRange, 0x0FFF⟩ ∧ fetchFaulted.fault ≠ none := ⟨rfl, by decide⟩

/-- `FetchBeyondMemoryFaults` and the second clause of `AStepRunsTheDecodedInstruction`: the first address no word can be fetched from. -/
theorem witness_fetch_beyond :
    ({ State.reset with pc := 0x0FFF } : State).fault = none ∧ 0x0FFE < ({ State.reset with pc := 0x0FFF } : State).pc.toNat := by decide

/-- `TimersCountDownInEveryCycle`: a running core whose instruction writes no timer, and one that writes the delay timer only. -/
theorem witness_timers :
    (loaded 0x6005 State.reset).fault = none ∧ (∃ t, cycle 0 0 (loaded 0x6005 State.reset) = .next t) ∧
    (∀ x, nextInstr (loaded 0x6005 State.reset) ≠ some (.setDelay x)) ∧ (∀ x, nextInstr (loaded 0x6005 State.reset) ≠ some (.setSound x)) ∧
    (∀ x, nextInstr (loaded 0xF015 State.reset) ≠ some (.setSound x)) := by
  have h1 : nextInstr (loaded 0x6005 State.reset) = some (.loadImm 0 5) := nextInstr_placeWord _ _
  have h2 : nextInstr (loaded 0xF015 State.reset) = some (.setDelay 0) := nextInstr_placeWord _ _
  rw [h1, h2]
  exact ⟨rfl, ⟨_, rfl⟩, by simp, by simp, by simp⟩

/-- `KeyLatchIsReplacedEveryCycle`: a running core whose instruction is not wait-key, and a key held after a wait-key. -/
theorem witness_key_latch :
    (loaded 0x6005 State.reset).fault = none ∧ (∃ t, cycle 0x8001 0 (loaded 0x6005 State.reset) = .next t ∧ t.keyHeld 15 = true) ∧
    (∀ x, nextInstr (loaded 0x6005 State.reset) ≠ some (.waitKey x)) ∧
    (loaded 0xF10A State.reset).fault = none ∧ ∃ t, cycle 0x8001 0 (loaded 0xF10A State.reset) = .next t ∧ t.keyHeld 15 = true := by
  have h1 : nextInstr (loaded 0x6005 State.reset) = some (.loadImm 0 5) := nextInstr_placeWord _ _
  rw [h1]
  exact ⟨rfl, ⟨_, rfl, rfl⟩, by simp, rfl, ⟨_, rfl, rfl⟩⟩

/-- `RandomByteReachesOnlyRandom`: two cycles of the same state that differ in the random byte alone. -/
theorem witness_random_byte :
    (∀ x kk, nextInstr (loaded 0x6005 State.reset) ≠ some (.random x kk)) ∧
    (∃ t, cycle 0 0x00 (loaded 0x6005 State.reset) = .next t) ∧ ∃ t, cycle 0 0xA7 (loaded 0x6005 State.reset) = .next t := by
  have h1 : nextInstr (loaded 0x6005 State.reset) = some (.loadImm 0 5) := nextInstr_placeWord _ _
  rw [h1]
  exact ⟨by simp, ⟨_, rfl⟩, ⟨_, rfl⟩⟩

/-- `ExecTakesTheFreeRandomByte`: an instruction that is not random. -/
theorem witness_not_random : ∀ x kk, Instr.loadImm 0 5 ≠ .random x kk := by simp

/-- `PcMovesOnlyByTheFourDirectives`: a cycle that answers a next state (a taken skip). -/
theorem witness_pc_moves : ∃ t, cycle 0 0 (loaded 0x3000 State.reset) = .next t ∧ t.pc = 0x0204 := ⟨_, rfl, by decide⟩

/-- `OnlyTheNamedInstructionsWriteEachUnit`: a cycle that changes I, one that changes SP and a stack entry, one that changes the framebuffer
and one that changes memory. -/
theorem witness_units_change :
    after (run 0xA300 State.reset) (fun t => t.i != 0x0000) = true ∧
    after (run 0x2ABC State.reset) (fun t => t.sp != 0 && t.stack != State.reset.stack) = true ∧
    after (run 0xD011 { poke 0x300 [0x80] State.reset with i := 0x0300 }) (fun t => t.fb != State.reset.fb) = true ∧
    after (run 0xF033 { regs [(0, 0x9D)] with i := 0x0300 }) (fun t => t.readMem 0x300 != 0) = true := by decide

/-- `FaultsAreExactlyTheTablesAndPrecise`: each row of the table of R170 that an instruction raises, and an instruction with none. -/
theorem witness_fault_table :
    faultOf (.call 0x300) (withStack 16 0 0 State.reset) = some ⟨.stackOverflow, 0x0200⟩ ∧
    faultOf .ret State.reset = some ⟨.stackUnderflow, 0x0200⟩ ∧
    faultOf (.draw 0 1 2) { State.reset with i := 0x0FFF } = some ⟨.dataRange, 0x0FFF⟩ ∧
    faultOf (.storeBcd 0) { State.reset with i := 0x0FFE } = some ⟨.dataRange, 0x0FFE⟩ ∧
    faultOf (.storeRegs 1) { State.reset with i := 0x0FFF } = some ⟨.dataRange, 0x0FFF⟩ ∧
    faultOf (.loadRegs 15) { State.reset with i := 0x0FF1 } = some ⟨.dataRange, 0x0FF1⟩ ∧
    faultOf (.skipKeyPressed 4) (regs [(4, 16)]) = some ⟨.keyRange, 0x0010⟩ ∧
    faultOf (.skipKeyNotPressed 4) (regs [(4, 0xFF)]) = some ⟨.keyRange, 0x00FF⟩ := by decide

theorem witness_no_fault :
    faultOf (.draw 0 1 0) { State.reset with i := 0xFFFF } = none ∧ faultOf (.draw 0 1 1) { State.reset with i := 0x0FFF } = none ∧
    faultOf (.storeBcd 0) { State.reset with i := 0x0FFD } = none ∧ faultOf (.storeRegs 0) { State.reset with i := 0x0FFF } = none ∧
    faultOf (.loadRegs 15) { State.reset with i := 0x0FF0 } = none ∧ faultOf (.skipKeyPressed 4) (regs [(4, 15)]) = none := by
  decide

/-- `AFaultingCycleKeepsOnlyItsFirstTwoSteps`: a fetch that faults and an instruction that faults. -/
theorem witness_faulting_cycle :
    ({ State.reset with pc := 0x0FFF } : State).fault = none ∧ faultNow { State.reset with pc := 0x0FFF } = some ⟨.fetchRange, 0x0FFF⟩ ∧
    (loaded 0x00EE State.reset).fault = none ∧ faultNow (loaded 0x00EE State.reset) = some ⟨.stackUnderflow, 0x0200⟩ := by
  refine ⟨rfl, rfl, rfl, ?_⟩
  have h : nextInstr (loaded 0x00EE State.reset) = some .ret := nextInstr_placeWord _ _
  rw [faultNow, h]
  rfl

/-- `CallPushesTheReturnAddress` and `ReturnGoesToTheNewestEntry`: every clause at its first and last SP. -/
theorem witness_stack_depths :
    State.reset.sp.val = (0 : Fin 16).val ∧ (withStack 15 0 0 State.reset).sp.val = (15 : Fin 16).val ∧
    (withStack 16 0 0 State.reset).sp.val = 16 ∧
    (withStack 1 0 0 State.reset).sp.val = (0 : Fin 16).val + 1 ∧ (withStack 16 0 0 State.reset).sp.val = (15 : Fin 16).val + 1 ∧
    State.reset.sp.val = 0 := by decide

/-- `ReturnPairsWithItsCall`: a call from an empty stack, and the return that executes in the very state it left. -/
theorem witness_call_and_return :
    State.reset.sp.val = (0 : Fin 16).val ∧
    ∃ t, exec (.call 0x300) State.reset = .next t ∧ t.sp.val = (0 : Fin 16).val + 1 ∧
      t.stack[(0 : Fin 16).val] = t.stack[(0 : Fin 16).val] := ⟨rfl, _, rfl, rfl, rfl⟩

/-- `ImmediateSkipsCompareAndMovePc`, `RegisterSkipsCompareAndMovePc`: equal and different operands, and X = Y. -/
theorem witness_skips :
    ((regs [(3, 0x2A)]).readV 3).toNat = (0x2A : Byte).toNat ∧ ((regs [(3, 0x2A)]).readV 3).toNat ≠ (0x2B : Byte).toNat ∧
    ((regs [(1, 7), (2, 7)]).readV 1).toNat = ((regs [(1, 7), (2, 7)]).readV 2).toNat ∧
    ((regs [(1, 7), (2, 8)]).readV 1).toNat ≠ ((regs [(1, 7), (2, 8)]).readV 2).toNat := by decide

/-- `AddRegLeavesSumAndCarry`: the sums 255 and 256, and a destination that is not VF. -/
theorem witness_sums :
    255 < ((regs [(1, 0xFF), (2, 1)]).readV 1).toNat + ((regs [(1, 0xFF), (2, 1)]).readV 2).toNat ∧
    ((regs [(1, 0xFF), (2, 0)]).readV 1).toNat + ((regs [(1, 0xFF), (2, 0)]).readV 2).toNat ≤ 255 ∧ (1 : Reg) ≠ VF := by decide

/-- `SubtractionsSetVFStrictly`: a greater, an equal and a smaller first operand. -/
theorem witness_differences :
    ((regs [(1, 5), (2, 4)]).readV 2).toNat < ((regs [(1, 5), (2, 4)]).readV 1).toNat ∧
    ((regs [(1, 5), (2, 5)]).readV 1).toNat ≤ ((regs [(1, 5), (2, 5)]).readV 2).toNat ∧
    ((regs [(1, 4), (2, 5)]).readV 1).toNat < ((regs [(1, 4), (2, 5)]).readV 2).toNat ∧
    ((regs [(1, 5), (2, 5)]).readV 2).toNat ≤ ((regs [(1, 5), (2, 5)]).readV 1).toNat ∧ (1 : Reg) ≠ VF := by decide

/-- `RandomMasksTheInputByte`: a running core whose next instruction is random. -/
theorem witness_random :
    (loaded 0xC30F State.reset).fault = none ∧ nextInstr (loaded 0xC30F State.reset) = some (.random 3 0x0F) :=
  ⟨rfl, nextInstr_placeWord _ _⟩

/-- `VFIsWrittenOnlyAsR21Says`: a flag writer that completes, and an instruction that writes VF in no way. -/
theorem witness_flag_writers :
    (isFlagWriter (.addReg 1 2) = true ∧ faultOf (.addReg 1 2) State.reset = none ∧ ∃ t, exec (.addReg 1 2) State.reset = .next t) ∧
    (isFlagWriter (.loadImm 14 5) = false ∧ writesVFAsOrdinary (.loadImm 14 5) = false ∧
      ∃ t, exec (.loadImm 14 5) State.reset = .next t) := ⟨⟨rfl, rfl, _, rfl⟩, rfl, rfl, _, rfl⟩

/-- `DrawXorsTheSpriteAndReportsCollision`: in range with no byte, at the last byte of memory, and one byte beyond. -/
theorem witness_draw_range :
    (0 : Nibble).toNat = 0 ∧ ({ State.reset with i := 0x0FFF } : State).i.toNat + ((1 : Nibble).toNat - 1) ≤ 0x0FFF ∧
    1 ≤ (2 : Nibble).toNat ∧ 0x0FFF < ({ State.reset with i := 0x0FFF } : State).i.toNat + ((2 : Nibble).toNat - 1) := by decide

/-- The same statement: a pixel the sprite covers, unlit (no collision), and the same with that pixel lit (a collision). -/
theorem witness_draw_covers :
    SpriteCovers { poke 0x300 [0x80] State.reset with i := 0x0300 } 0 1 1 0 0 ∧
    SpriteCovers { poke 0x300 [0x80] State.reset with i := 0x0300, fb := lit [(0, 0)] } 0 1 1 0 0 ∧
    ({ poke 0x300 [0x80] State.reset with i := 0x0300, fb := lit [(0, 0)] } : State).fb.pixel 0 0 = true := by
  refine ⟨⟨0, 0, by decide, by decide, by decide, by decide, by decide⟩,
    ⟨0, 0, by decide, by decide, by decide, by decide, by decide⟩, by decide⟩

/-- The same statement: a sprite of no byte meets no lit pixel. -/
theorem witness_draw_no_collision (s : State) :
    ¬ ∃ row col, SpriteCovers s 0 1 0 row col ∧ s.fb.pixel row col = true := by
  rintro ⟨row, col, ⟨r, c, hr, -⟩, -⟩
  exact absurd hr (Nat.not_lt_zero r)

/-- `DrawingTwiceRestoresTheFramebuffer`: two draws of one sprite, from the state of T-D5. -/
theorem witness_draw_twice :
    (1 : Reg) ≠ VF ∧ (2 : Reg) ≠ VF ∧ faultOf (.draw 1 2 2) sprite5 = none ∧
    ∃ t, exec (.draw 1 2 2) sprite5 = .next t ∧ ∃ u, exec (.draw 1 2 2) t = .next u := by
  refine ⟨by decide, by decide, by decide, ?_⟩
  have h : after (exec (.draw 1 2 2) sprite5) (fun t => after (exec (.draw 1 2 2) t) fun _ => true) = true := by decide
  revert h
  cases exec (.draw 1 2 2) sprite5 with
  | fault f => cases f
  | refused f => intro h; cases h
  | next t =>
    intro h
    refine ⟨t, rfl, ?_⟩
    revert h
    simp only [after]
    cases exec (.draw 1 2 2) t with
    | fault f => cases f
    | refused f => intro h; cases h
    | next u => exact fun _ => ⟨u, rfl⟩

/-- `StoreBcdWritesTheThreeDigits`, `StoreRegsWritesTheBlock`, `LoadRegsReadsTheBlock`: the last address in range and the first out of it. -/
theorem witness_data_range :
    (0x0FFD : Word).toNat + 2 ≤ 0x0FFF ∧ 0x0FFF < (0x0FFE : Word).toNat + 2 ∧
    (0x0FF0 : Word).toNat + (15 : Reg).toNat ≤ 0x0FFF ∧ 0x0FFF < (0x0FF1 : Word).toNat + (15 : Reg).toNat := by decide

/-- `StoredBlocksLoadBack`: a store-regs and a store-bcd that complete; the loading state is the one each left. -/
theorem witness_store_then_load :
    (∃ t, exec (.storeRegs 3) { State.reset with i := 0x0400 } = .next t ∧ t.i = 0x0400) ∧
    (∃ t, exec (.storeBcd 3) { State.reset with i := 0x0400 } = .next t ∧ t.i = 0x0400) ∧
    (0x0400 : Word).toNat + (3 : Reg).toNat ≤ 0x0FFF := ⟨⟨_, rfl, rfl⟩, ⟨_, rfl, rfl⟩, by decide⟩

/-- `AStoreIsSeenByTheNextFetch`: T-M13. -/
theorem witness_self_modifying :
    ({ State.reset with i := 0x0202 } : State).i.toNat + (1 : Reg).toNat ≤ 0x0FFF ∧ (1 : Reg).toNat ≤ (1 : Reg).toNat ∧
    (1 : Reg).toNat = (0 : Reg).toNat + 1 ∧
    (({ State.reset with i := 0x0202 } : State).pc + 2).toNat = ({ State.reset with i := 0x0202 } : State).i.toNat + (0 : Reg).toNat := by
  decide

/-- `TimersRunDownToZero`: a run of two cycles in which neither timer is written. -/
theorem witness_timer_run :
    (∃ t, runCycles [(0, 0), (0x8001, 0xA7)] (loaded 0x1200 State.reset) = .next t) ∧
    NoSetDelay [(0, 0)] (loaded 0x1200 State.reset) ∧ NoSetSound [(0, 0)] (loaded 0x1200 State.reset) := by
  have h : nextInstr (loaded 0x1200 State.reset) = some (.jump 0x200) := nextInstr_placeWord _ _
  refine ⟨?_, ⟨rfl, ?_, fun _ _ => trivial⟩, rfl, ?_, fun _ _ => trivial⟩
  · have h2 : after (runCycles [(0, 0), (0x8001, 0xA7)] (loaded 0x1200 State.reset)) (fun _ => true) = true := by decide
    revert h2
    cases runCycles [(0, 0), (0x8001, 0xA7)] (loaded 0x1200 State.reset) with
    | fault f => cases f
    | refused f => intro h2; cases h2
    | next t => exact fun _ => ⟨t, rfl⟩
  · rw [h]; simp
  · rw [h]; simp

/-- `KeySkipsTestTheKeyVxNames`: key number 15 held and not held, and 16. -/
theorem witness_key_numbers :
    ((regs [(4, 15)]).readV 4).toNat ≤ 15 ∧ 15 < ((regs [(4, 16)]).readV 4).toNat ∧
    ({ regs [(4, 15)] with key := 0x8000 } : State).keyHeld (({ regs [(4, 15)] with key := 0x8000 } : State).readV 4).toNat = true ∧
    (regs [(4, 15)]).keyHeld ((regs [(4, 15)]).readV 4).toNat = false := by decide

/-- `WaitKeyTakesTheLeastHeldKey`: no key; and keys 3 and 7, key 15 alone. -/
theorem witness_held_keys :
    (∀ k : Fin 16, State.reset.keyHeld k.val = false) ∧
    (({ State.reset with key := 0x0088 } : State).keyHeld (3 : Fin 16).val = true ∧
      ∀ j : Fin 16, j.val < 3 → ({ State.reset with key := 0x0088 } : State).keyHeld j.val = false) ∧
    (({ State.reset with key := 0x8000 } : State).keyHeld (15 : Fin 16).val = true ∧
      ∀ j : Fin 16, j.val < 15 → ({ State.reset with key := 0x8000 } : State).keyHeld j.val = false) := by decide

/-- `WaitKeyWaitsForAKey`: a running core at a wait-key, and a key vector whose least held key is 3. -/
theorem witness_waiting :
    (loaded 0xF10A State.reset).fault = none ∧ nextInstr (loaded 0xF10A State.reset) = some (.waitKey 1) ∧
    (0x0088 : BitVec 16).getLsbD (3 : Fin 16).val = true ∧ ∀ j, j < (3 : Fin 16).val → (0x0088 : BitVec 16).getLsbD j = false :=
  ⟨rfl, nextInstr_placeWord _ _, by decide, by decide⟩

end Sys2Proof.Tests.Slice0
end

section
/-! SUPPORT. What an instruction can do, once (spec/10_state.md rule R41 steps 6 and 7, spec/60_exceptions.md rule R170): it raises the fault
the table names and changes nothing else, or it completes in one of the ways `Completes` lists. Later proofs split on those ways and do not
unfold the 35 meanings. -/

namespace Sys2Proof.Machine

open Sys2Proof.Safety

/-! ### Where the table of R170 names a fault -/

/-- Executing an instruction for which the table names a fault latches that fault and does nothing else (R170, R176). -/
theorem execWith_of_faultOf (b : Byte) {i : Instr} {s : State} {f : FaultRecord} (h : faultOf i s = some f) :
    execWith b i s = .next { s with fault := some f } := by
  cases i with
  | call nnn =>
    obtain ⟨hc, ⟨⟩⟩ := Option.ite_none_right_eq_some.1 h
    show execCall nnn s = _
    rw [execCall, State.push_eq_none.2 hc]; rfl
  | ret =>
    obtain ⟨hc, ⟨⟩⟩ := Option.ite_none_right_eq_some.1 h
    show execRet s = _
    rw [execRet, State.pop_eq_none.2 hc]; rfl
  | draw x y n =>
    obtain ⟨hc, ⟨⟩⟩ := Option.ite_none_right_eq_some.1 h
    show execDraw x y n s = _
    rw [execDraw, spriteHeight, State.loadAtI_eq_none.2 hc]; rfl
  | storeBcd x =>
    obtain ⟨hc, ⟨⟩⟩ := Option.ite_none_right_eq_some.1 h
    show execStoreBcd x s = _
    rw [execStoreBcd, State.storeAtI_eq_none.2 ⟨by simp, by simpa using hc⟩]; rfl
  | storeRegs x =>
    obtain ⟨hc, ⟨⟩⟩ := Option.ite_none_right_eq_some.1 h
    show execStoreRegs x s = _
    rw [execStoreRegs, State.storeAtI_eq_none.2 ⟨by simp, by simpa using hc⟩]; rfl
  | loadRegs x =>
    obtain ⟨hc, ⟨⟩⟩ := Option.ite_none_right_eq_some.1 h
    show execLoadRegs x s = _
    rw [execLoadRegs, State.loadAtI_eq_none.2 ⟨by simp, by simpa using hc⟩]; rfl
  | skipKeyPressed x =>
    obtain ⟨hc, ⟨⟩⟩ := Option.ite_none_right_eq_some.1 h
    exact if_pos hc
  | skipKeyNotPressed x =>
    obtain ⟨hc, ⟨⟩⟩ := Option.ite_none_right_eq_some.1 h
    exact if_pos hc
  | _ => cases h

/-! ### Where it names none -/

/-- The ways an instruction `i` completes in `s`, leaving `t`: by the pieces of state it writes and the directive it ends with. Where a way
leaves the value written open, the value is the instruction's own. -/
inductive Completes (s : State) : Instr → State → Prop
  /-- The skips and the unmatched word: pc alone moves. -/
  | moves {i : Instr} (c : Bool) (hf : isFlagWriter i = false) : Completes s i (s.apply (if c then .skip else .next))
  /-- A jump. -/
  | jumps (nnn : Addr12) : Completes s (.jump nnn) (s.apply (.jump (zextAddr nnn)))
  /-- A jump-offset. -/
  | jumpsOffset (nnn : Addr12) : Completes s (.jumpOffset nnn) (s.apply (.jump (zextAddr nnn + zextByte (s.readV V0))))
  /-- A call, with entry `k` the first that is not in use. -/
  | calls (nnn : Addr12) (k : Fin 16) (hk : s.sp.val = k.val) :
      Completes s (.call nnn) (State.apply { s with stack := s.stack.set k.val (s.pc + 2), sp := k.succ } (.jump (zextAddr nnn)))
  /-- A return, with entry `k` the newest. -/
  | returns (k : Fin 16) (hk : s.sp.val = k.val + 1) :
      Completes s .ret (State.apply { s with sp := k.castSucc } (.jump s.stack[k.val]))
  /-- An instruction with the one ordinary destination Vx. -/
  | writesReg {i : Instr} (x : Reg) (b : Byte) (hf : isFlagWriter i = false) (hx : writesVFAsOrdinary i = (x == VF)) :
      Completes s i ((s.writeV x b).apply .next)
  /-- A flag writer other than draw. -/
  | writesFlag {i : Instr} (x : Reg) (b : Byte) (f : Bool) (hf : isFlagWriter i = true) :
      Completes s i ((s.writeResultFlag x b f).apply .next)
  /-- A load-regs. -/
  | loads (x : Reg) (bs : List Byte) (hb : bs.length = x.toNat + 1) : Completes s (.loadRegs x) ((s.writeBlockV bs).apply .next)
  /-- A store-bcd or a store-regs. -/
  | stores {i : Instr} (bs : List Byte) (hi : (∃ x, i = .storeBcd x) ∨ ∃ x, i = .storeRegs x)
      (hb : bs.length = 0 ∨ s.i.toNat + bs.length ≤ memSize) :
      Completes s i (State.apply { s with mem := s.mem.writeBytes s.i.toNat bs } .next)
  /-- An instruction that writes I. -/
  | writesIndex {i : Instr} (w : Word) (hi : (∃ nnn, i = .loadIndex nnn) ∨ (∃ x, i = .addIndex x) ∨ ∃ x, i = .fontAddress x) :
      Completes s i (State.apply { s with i := w } .next)
  /-- A clear-screen. -/
  | clears : Completes s .clearScreen (State.apply { s with fb := Framebuffer.clear } .next)
  /-- A draw: the canvas and the collision flag. -/
  | draws (x y : Reg) (n : Nibble) (fb : Framebuffer) (f : Bool) :
      Completes s (.draw x y n) ((State.writeV { s with fb := fb } VF (flagByte f)).apply .next)
  /-- A set-delay. -/
  | setsDelay (x : Reg) : Completes s (.setDelay x) (State.apply { s with dt := s.readV x } .next)
  /-- A set-sound. -/
  | setsSound (x : Reg) : Completes s (.setSound x) (State.apply { s with st := s.readV x } .next)
  /-- A wait-key with no key held. -/
  | waits (x : Reg) : Completes s (.waitKey x) s
  /-- A wait-key that takes the held key `k`. -/
  | takesKey (x : Reg) (k : Nat) : Completes s (.waitKey x) (((s.clearKey k).writeV x (BitVec.ofNat 8 k)).apply .next)

theorem execCall_completes {nnn : Addr12} {s : State} (h : faultOf (.call nnn) s = none) :
    ∃ t, execCall nnn s = .next t ∧ Completes s (.call nnn) t := by
  have hc : s.sp.val ≠ 16 := by simpa [faultOf] using h
  have hk : s.sp.val < 16 := by have := s.sp.isLt; omega
  exact ⟨_, by rw [execCall, State.push_of_lt (s.pc + 2) ⟨s.sp.val, hk⟩ rfl]; rfl, .calls nnn ⟨s.sp.val, hk⟩ rfl⟩

theorem execRet_completes {s : State} (h : faultOf .ret s = none) : ∃ t, execRet s = .next t ∧ Completes s .ret t := by
  have hc : s.sp.val ≠ 0 := by simpa [faultOf] using h
  have hlt := s.sp.isLt
  have hk : s.sp.val = (⟨s.sp.val - 1, by omega⟩ : Fin 16).val + 1 := (Nat.succ_pred_eq_of_ne_zero hc).symm
  exact ⟨_, by rw [execRet, State.pop_of_eq _ hk]; rfl, .returns _ hk⟩

theorem execDraw_completes {x y : Reg} {n : Nibble} {s : State} (h : faultOf (.draw x y n) s = none) :
    ∃ t, execDraw x y n s = .next t ∧ Completes s (.draw x y n) t := by
  cases hl : s.loadAtI (spriteHeight n) with
  | none => exact absurd (State.loadAtI_eq_none.1 hl) (by simpa [faultOf, spriteHeight] using h)
  | some sprite => exact ⟨_, by rw [execDraw, hl]; rfl, .draws x y n _ _⟩

theorem execStoreBcd_completes {x : Reg} {s : State} (h : faultOf (.storeBcd x) s = none) :
    ∃ t, execStoreBcd x s = .next t ∧ Completes s (.storeBcd x) t := by
  cases hu : s.storeAtI (bcdDigits (s.readV x)) with
  | none => exact absurd (State.storeAtI_eq_none.1 hu).2 (by simpa [faultOf] using h)
  | some u =>
    obtain ⟨hb, rfl⟩ := State.storeAtI_eq_some.1 hu
    exact ⟨_, by rw [execStoreBcd, hu]; rfl, .stores _ (.inl ⟨x, rfl⟩) hb⟩

theorem execStoreRegs_completes {x : Reg} {s : State} (h : faultOf (.storeRegs x) s = none) :
    ∃ t, execStoreRegs x s = .next t ∧ Completes s (.storeRegs x) t := by
  cases hu : s.storeAtI (s.blockV x) with
  | none => exact absurd (State.storeAtI_eq_none.1 hu).2 (by simpa [faultOf] using h)
  | some u =>
    obtain ⟨hb, rfl⟩ := State.storeAtI_eq_some.1 hu
    exact ⟨_, by rw [execStoreRegs, hu]; rfl, .stores _ (.inr ⟨x, rfl⟩) hb⟩

theorem execLoadRegs_completes {x : Reg} {s : State} (h : faultOf (.loadRegs x) s = none) :
    ∃ t, execLoadRegs x s = .next t ∧ Completes s (.loadRegs x) t := by
  cases hl : s.loadAtI (x.toNat + 1) with
  | none => exact absurd (State.loadAtI_eq_none.1 hl).2 (by simpa [faultOf] using h)
  | some bs =>
    refine ⟨_, by rw [execLoadRegs, hl]; rfl, .loads x bs ?_⟩
    rw [(State.loadAtI_eq_some.1 hl).2, Memory.readBytes_length]

theorem execSkipKeyPressed_completes {x : Reg} {s : State} (h : faultOf (.skipKeyPressed x) s = none) :
    ∃ t, execSkipKeyPressed x s = .next t ∧ Completes s (.skipKeyPressed x) t :=
  have hc : ¬ (s.readV x).toNat > 15 := by simpa [faultOf] using h
  ⟨_, if_neg hc, .moves _ rfl⟩

theorem execSkipKeyNotPressed_completes {x : Reg} {s : State} (h : faultOf (.skipKeyNotPressed x) s = none) :
    ∃ t, execSkipKeyNotPressed x s = .next t ∧ Completes s (.skipKeyNotPressed x) t :=
  have hc : ¬ (s.readV x).toNat > 15 := by simpa [faultOf] using h
  ⟨_, if_neg hc, .moves _ rfl⟩

theorem waitKeyState_completes (x : Reg) (s : State) : Completes s (.waitKey x) (waitKeyState x s) := by
  unfold waitKeyState
  split
  · exact .waits x
  · exact .takesKey x _

/-- Executing an instruction for which the table of R170 names no fault completes, in one of the ways listed. -/
theorem execWith_completes (b : Byte) {i : Instr} {s : State} (h : faultOf i s = none) :
    ∃ t, execWith b i s = .next t ∧ Completes s i t := by
  cases i with
  | call => exact execCall_completes h
  | ret => exact execRet_completes h
  | draw => exact execDraw_completes h
  | storeBcd => exact execStoreBcd_completes h
  | storeRegs => exact execStoreRegs_completes h
  | loadRegs => exact execLoadRegs_completes h
  | skipKeyPressed => exact execSkipKeyPressed_completes h
  | skipKeyNotPressed => exact execSkipKeyNotPressed_completes h
  | waitKey x => exact ⟨_, rfl, waitKeyState_completes x s⟩
  | clearScreen => exact ⟨_, rfl, .clears⟩
  | jump nnn => exact ⟨_, rfl, .jumps nnn⟩
  | jumpOffset nnn => exact ⟨_, rfl, .jumpsOffset nnn⟩
  | skipEqImm | skipNeImm | skipEqReg | skipNeReg => exact ⟨_, rfl, .moves _ rfl⟩
  | unmatched => exact ⟨_, rfl, .moves false rfl⟩
  | loadImm | addImm | loadReg | orReg | andReg | xorReg | random | getDelay => exact ⟨_, rfl, .writesReg _ _ rfl rfl⟩
  | addReg | subReg | shiftRight | subnReg | shiftLeft => exact ⟨_, rfl, .writesFlag _ _ _ rfl⟩
  | loadIndex nnn => exact ⟨_, rfl, .writesIndex _ (.inl ⟨nnn, rfl⟩)⟩
  | addIndex x => exact ⟨_, rfl, .writesIndex _ (.inr (.inl ⟨x, rfl⟩))⟩
  | fontAddress x => exact ⟨_, rfl, .writesIndex _ (.inr (.inr ⟨x, rfl⟩))⟩
  | setDelay x => exact ⟨_, rfl, .setsDelay x⟩
  | setSound x => exact ⟨_, rfl, .setsSound x⟩

/-- Everything executing an instruction can do: raise the fault of the table, or complete. -/
theorem execWith_inv {b : Byte} {i : Instr} {s t : State} (e : execWith b i s = .next t) :
    (∃ f, faultOf i s = some f ∧ t = { s with fault := some f }) ∨ (faultOf i s = none ∧ Completes s i t) := by
  cases h : faultOf i s with
  | some f =>
    rw [execWith_of_faultOf b h] at e
    cases e
    exact .inl ⟨f, rfl, rfl⟩
  | none =>
    obtain ⟨u, hu, hc⟩ := execWith_completes b h
    rw [hu] at e
    cases e
    exact .inr ⟨rfl, hc⟩

/-! ### The cycle, with the fault table -/

theorem nextInstr_of_pc_le {s : State} (h : s.pc.toNat ≤ 0x0FFE) :
    nextInstr s = some (decode (s.readMem s.pc.toNat ++ s.readMem (s.pc.toNat + 1))) := by
  rw [nextInstr, State.fetch_eq_ite, if_neg (Nat.not_lt.2 h)]; rfl

theorem pc_le_of_nextInstr {s : State} {i : Instr} (h : nextInstr s = some i) : s.pc.toNat ≤ 0x0FFE :=
  Nat.not_lt.1 fun hp => by simp [nextInstr_eq_none.2 hp] at h

/-- The table reads neither the key latch, the timers, the counter nor the fault latch. -/
@[simp] theorem faultOf_begin (i : Instr) (s : State) (k : BitVec 16) : faultOf i (s.begin k) = faultOf i s := rfl

@[simp] theorem faultNow_begin_fault (s : State) (k : BitVec 16) (f : Option FaultRecord) :
    faultNow { s.begin k with fault := f } = faultNow s := rfl

theorem faultNow_of_none {s : State} (h : nextInstr s = none) : faultNow s = some ⟨.fetchRange, s.pc⟩ := by
  rw [faultNow, h]

theorem faultNow_of_some {s : State} {i : Instr} (h : nextInstr s = some i) : faultNow s = faultOf i s := by
  rw [faultNow, h]

/-- Everything a cycle can do: it is frozen, or its fetch or its instruction latches the fault of the table, or its instruction completes. -/
theorem cycle_inv {k : BitVec 16} {b : Byte} {s t : State} (e : cycle k b s = .next t) :
    ((∃ f, s.fault = some f) ∧ t = s) ∨
    (s.fault = none ∧ ∃ f, faultNow s = some f ∧ t = { s.begin k with fault := some f }) ∨
    (s.fault = none ∧ ∃ i, nextInstr s = some i ∧ Completes (s.begin k) i t) := by
  obtain h | ⟨hs, hn, rfl⟩ | ⟨hs, i, hn, he⟩ := cycle_cases e
  · exact .inl h
  · exact .inr (.inl ⟨hs, _, faultNow_of_none hn, rfl⟩)
  · obtain ⟨f, hf, rfl⟩ | ⟨-, hc⟩ := execWith_inv he
    · exact .inr (.inl ⟨hs, f, by rw [faultNow_of_some hn, ← faultOf_begin i s k, hf], rfl⟩)
    · exact .inr (.inr ⟨hs, i, hn, hc⟩)

end Sys2Proof.Machine
end

section
/-! SUPPORT. What an instruction that completes leaves of each unit of the state: each lemma splits on the ways of `Completes`
(spec/10_state.md sections 2 to 8). -/

namespace Sys2Proof.Machine.Completes

open Sys2Proof.Safety

variable {i : Instr} {s t : State}

/-- An instruction that completes leaves the fault latch alone. -/
theorem fault_eq (c : Completes s i t) : t.fault = s.fault := by
  cases c <;> simp

/-- Only load-index, add-index and font-address write I (R26). -/
theorem i_eq_or (c : Completes s i t) :
    t.i = s.i ∨ (∃ nnn, i = .loadIndex nnn) ∨ (∃ x, i = .addIndex x) ∨ ∃ x, i = .fontAddress x := by
  cases c with
  | writesIndex w hi => exact .inr hi
  | _ => simp

/-- Only call and return write SP (R27). -/
theorem sp_eq_or (c : Completes s i t) : t.sp = s.sp ∨ (∃ nnn, i = .call nnn) ∨ i = .ret := by
  cases c with
  | calls nnn => exact .inr (.inl ⟨nnn, rfl⟩)
  | returns => exact .inr (.inr rfl)
  | _ => simp

/-- Only call writes a stack entry (R27, R28). -/
theorem stack_eq_or (c : Completes s i t) : t.stack = s.stack ∨ ∃ nnn, i = .call nnn := by
  cases c with
  | calls nnn => exact .inr ⟨nnn, rfl⟩
  | _ => simp

/-- Only clear-screen and draw write the framebuffer (R31). -/
theorem fb_eq_or (c : Completes s i t) : t.fb = s.fb ∨ i = .clearScreen ∨ ∃ x y n, i = .draw x y n := by
  cases c with
  | clears => exact .inr (.inl rfl)
  | draws x y n => exact .inr (.inr ⟨x, y, n, rfl⟩)
  | _ => simp

/-- Only store-bcd and store-regs write memory (R32). -/
theorem mem_eq_or (c : Completes s i t) : t.mem = s.mem ∨ (∃ x, i = .storeBcd x) ∨ ∃ x, i = .storeRegs x := by
  cases c with
  | stores bs hi => exact .inr hi
  | _ => simp

/-- Only wait-key writes the key latch (R30). -/
theorem key_eq_or (c : Completes s i t) : t.key = s.key ∨ ∃ x, i = .waitKey x := by
  cases c with
  | takesKey x k => exact .inr ⟨x, rfl⟩
  | _ => simp

/-- No instruction sets a bit of the key latch (R30). -/
theorem keyHeld_imp (c : Completes s i t) {k : Nat} (h : t.keyHeld k = true) : s.keyHeld k = true := by
  cases c with
  | takesKey x j => exact State.keyHeld_of_clearKey (by simpa using h)
  | _ => simpa [State.keyHeld] using h

/-- pc moves by 2 or by 4, stays, or goes to the target of a jump, a call, a jump-offset or a return (R23). -/
theorem pc_cases (c : Completes s i t) :
    t.pc = s.pc ∨ t.pc = s.pc + 2 ∨ t.pc = s.pc + 4 ∨
    (∃ nnn, i = .jump nnn ∧ t.pc = zextAddr nnn) ∨ (∃ nnn, i = .call nnn ∧ t.pc = zextAddr nnn) ∨
    (∃ nnn, i = .jumpOffset nnn ∧ t.pc = zextAddr nnn + zextByte (s.readV V0)) ∨
    (i = .ret ∧ ∃ k : Fin 16, k.val + 1 = s.sp.val ∧ t.pc = s.stack[k.val]) := by
  cases c with
  | moves b => cases b <;> simp
  | returns k hk => exact .inr (.inr (.inr (.inr (.inr (.inr ⟨rfl, k, hk.symm, rfl⟩)))))
  | _ => simp

/-- A flag writer leaves its flag in VF (R21, R22). -/
theorem readV_VF_of_isFlagWriter (c : Completes s i t) (h : isFlagWriter i = true) : ∃ f, t.readV VF = flagByte f := by
  cases c with
  | writesFlag x b f => exact ⟨f, by simp [State.readV_writeResultFlag]⟩
  | draws x y n fb f => exact ⟨f, by simp⟩
  | moves c hf | writesReg x b hf => simp [hf] at h
  | stores bs hi => obtain ⟨x, rfl⟩ | ⟨x, rfl⟩ := hi <;> cases h
  | writesIndex w hi => obtain ⟨x, rfl⟩ | ⟨x, rfl⟩ | ⟨x, rfl⟩ := hi <;> cases h
  | _ => cases h

/-- Every other instruction writes VF only as the ordinary destination X = 15 (R21). -/
theorem readV_VF_eq (c : Completes s i t) (h : isFlagWriter i = false) (h' : writesVFAsOrdinary i = false) :
    t.readV VF = s.readV VF := by
  have ne_of_dest : ∀ {x : Reg}, writesVFAsOrdinary i = (x == VF) → VF ≠ x := fun hx e => by simp [h', e] at hx
  cases c with
  | writesReg x b hf hx => simp [State.readV_writeV, ne_of_dest hx]
  | takesKey x k => simp [State.readV_writeV, ne_of_dest (x := x) rfl]
  | loads x bs hb =>
    have hx : ¬ VF.toNat < bs.length := by
      have := ne_of_dest (x := x) rfl
      bv_omega
    rw [State.readV_apply, State.readV_writeBlockV s bs (by omega), if_neg hx]
  | writesFlag x b f hf => simp [h] at hf
  | draws => cases h
  | _ => exact State.readV_congr (by simp) VF

end Sys2Proof.Machine.Completes
end

section
/-! SUPPORT. Each part of the invariant `Healthy` is kept by an instruction that completes (spec/10_state.md rules R24 and R27), and the whole of
it by every cycle. -/

namespace Sys2Proof.Machine

open Sys2Proof.Safety

@[simp] theorem zextAddr_toNat (nnn : Addr12) : (zextAddr nnn).toNat = nnn.toNat :=
  BitVec.toNat_setWidth_of_le (by decide)

@[simp] theorem zextByte_toNat (b : Byte) : (zextByte b).toNat = b.toNat :=
  BitVec.toNat_setWidth_of_le (by decide)

namespace Completes

variable {i : Instr} {s t : State}

theorem mem_wf (c : Completes s i t) (hs : s.mem.wf) : t.mem.wf := by
  cases c with
  | stores bs hi hb =>
    rw [State.apply_mem]
    exact State.storeAtI_wf hs (State.storeAtI_eq_some.2 ⟨hb, rfl⟩)
  | _ => simpa using hs

/-- The largest pc is that of a jump-offset to 0x0FFF with V0 = 0xFF (R24, R98). -/
theorem pc_le (c : Completes s i t) (hs : Healthy s) (hp : s.pc.toNat ≤ 0x0FFE) : t.pc.toNat ≤ 0x10FE := by
  obtain e | e | e | ⟨nnn, -, e⟩ | ⟨nnn, -, e⟩ | ⟨nnn, -, e⟩ | ⟨-, k, hk, e⟩ := c.pc_cases
  · rw [e]; exact hs.pcBound
  · rw [e]; bv_omega
  · rw [e]; bv_omega
  · rw [e, zextAddr_toNat]; omega
  · rw [e, zextAddr_toNat]; omega
  · rw [e, BitVec.toNat_add, zextAddr_toNat, zextByte_toNat]; omega
  · rw [e]; have := (hs.stackBound k (by omega)).2; omega

/-- A call pushes `pc + 2`, which lies from 0x0002 to 0x1000 because the call itself was fetched; no other instruction adds an entry (R27). -/
theorem stack_bound (c : Completes s i t) (hs : Healthy s) (hp : s.pc.toNat ≤ 0x0FFE) (j : Fin 16) (hj : j.val < t.sp.val) :
    0x0002 ≤ t.stack[j.val].toNat ∧ t.stack[j.val].toNat ≤ 0x1000 := by
  cases c with
  | calls nnn k hk =>
    simp only [State.apply_sp, Fin.val_succ] at hj
    simp only [State.apply_stack, Vector.getElem_set]
    split
    · bv_omega
    · exact hs.stackBound j (by omega)
  | returns k hk =>
    simp only [State.apply_sp, Fin.val_castSucc] at hj
    simpa using hs.stackBound j (by omega)
  | _ => simpa using hs.stackBound j (by simpa using hj)

/-- An instruction that completes after a fetch keeps the invariant. -/
theorem healthy (c : Completes s i t) (hs : Healthy s) (hf : s.fault = none) (hp : s.pc.toNat ≤ 0x0FFE) : Healthy t where
  memWf := c.mem_wf hs.memWf
  pcBound := c.pc_le hs hp
  stackBound := c.stack_bound hs hp
  faultPrecise f h := by simp [c.fault_eq, hf] at h

end Completes

/-- Steps 1 and 2 of the cycle keep the invariant, and so does latching the fault that the fetch or the instruction raises (R176). -/
theorem healthy_begin_fault {s : State} {o : Option FaultRecord} (hs : Healthy s) (k : BitVec 16)
    (ho : ∀ f, o = some f → faultNow s = some f) : Healthy { s.begin k with fault := o } where
  memWf := hs.memWf
  pcBound := hs.pcBound
  stackBound := hs.stackBound
  faultPrecise f h := (faultNow_begin_fault s k o).trans (ho f h)

/-- Every cycle keeps the invariant: frozen it answers its state, faulting it latches the fault of this very state, and an instruction that
completes was fetched at or below 0x0FFE. -/
theorem healthy_cycle {k : BitVec 16} {b : Byte} {s t : State} (hs : Healthy s) (e : cycle k b s = .next t) : Healthy t := by
  obtain ⟨-, rfl⟩ | ⟨-, f, hf, rfl⟩ | ⟨hn, i, hi, c⟩ := cycle_inv e
  · exact hs
  · exact healthy_begin_fault hs k fun g hg => hg ▸ hf
  · exact c.healthy (healthy_begin_fault hs k hs.faultPrecise) hn (pc_le_of_nextInstr hi)

theorem healthy_reset : Healthy State.reset where
  memWf := State.reset_mem_wf
  pcBound := by decide
  stackBound _ hk := absurd hk (Nat.not_lt_zero _)
  faultPrecise _ h := nomatch h

end Sys2Proof.Machine
end

section
/-! SUPPORT. What ROM load accepts and leaves (spec/20_memory.md rule R58, spec/10_state.md rule R35). -/

namespace Sys2Proof.Machine

theorem loadRom_of_length_le {rom : List Byte} (h : rom.length ≤ 3584) :
    loadRom rom = .next { State.reset with mem := State.reset.mem.writeBytes romBase rom } :=
  if_pos (by simp only [romBase, memSize]; omega)

theorem loadRom_of_lt_length {rom : List Byte} (h : 3584 < rom.length) : loadRom rom = .refused .romTooLong :=
  if_neg (by simp only [romBase, memSize]; omega)

/-- Memory right after ROM load: the image from ROM_BASE on, and the reset contents elsewhere. -/
theorem read_reset_writeBytes (rom : List Byte) (a : Nat) :
    (State.reset.mem.writeBytes romBase rom).read a =
      if romBase ≤ a ∧ a < romBase + rom.length then rom.getD (a - romBase) 0 else Memory.initial a :=
  Memory.read_writeBytes _ _ _ _

/-- Outside the font an address that no memory lists reads as 0 (R35). -/
theorem Memory.initial_of_not_font {a : Nat} (h : ¬ (Config.fontBase.val ≤ a ∧ a < Config.fontBase.val + 80)) :
    Memory.initial a = 0 := by
  simp [Memory.initial, fontImage, h]

end Sys2Proof.Machine
end

section
/-! SETTLED. The statements about the state, its reset and its cycle (spec/10_state.md). -/

namespace Sys2Proof.Machine

open Sys2Proof.Safety

/-- Settles O3: a step is a cycle, and every cycle keeps the invariant. -/
theorem everyStepKeepsTheInvariant : Obligations.EveryStepKeepsTheInvariant :=
  ⟨fun _ _ hs e => healthy_cycle hs e, fun _ _ _ _ hs e => healthy_cycle hs e⟩

/-- Settles O2: the reset state lists no memory, has an empty stack and no fault. -/
theorem resetMeetsTheInvariant : Obligations.ResetMeetsTheInvariant := healthy_reset

/-- Settles O1: memory after ROM load is the image over the reset contents, and every other field is that of `State.reset`. -/
theorem resetLeavesTheStatedState : Obligations.ResetLeavesTheStatedState := by
  have hb := Config.fontBase.isLt
  refine ⟨fun rom hr => ⟨_, loadRom_of_length_le hr, fun r => ?_, rfl, rfl, rfl, fun k => ?_, rfl, rfl, fun k => ?_, fun y x => ?_, rfl,
    by omega, fun j => ?font, fun j hj => ?image, fun a _ hf hi => ?zero⟩, fun rom hr => loadRom_of_lt_length hr, rfl⟩
  · simp [State.readV, State.reset]
  · simp [State.reset]
  · simp [State.keyHeld, State.reset]
  · exact Framebuffer.pixel_clear y x
  case font =>
    rw [State.readMem, read_reset_writeBytes, if_neg (by simp only [romBase]; omega), Memory.initial_fontBase_add]
  case image =>
    rw [State.readMem, read_reset_writeBytes, romBase, if_pos (by omega), Nat.add_sub_cancel_left]
  case zero =>
    rw [State.readMem, read_reset_writeBytes, romBase, if_neg hi, Memory.initial_of_not_font hf]

/-- Settles O11: the fetch is at hand exactly up to 0x0FFE, and the state of the first two steps is `State.begin`. -/
theorem aStepRunsTheDecodedInstruction : Obligations.AStepRunsTheDecodedInstruction := by
  refine ⟨fun k b s hs => ?_, fun k b s hs hp => ?_, fun k b s hs hp => ?_, fun s => rfl, fun s hs hp => ?_⟩
  · obtain ⟨f, hf⟩ := Option.ne_none_iff_exists'.1 hs
    exact cycle_of_fault k b hf
  · exact cycle_of_none k b hs (nextInstr_eq_none.2 hp)
  · exact cycle_of_some k b hs (nextInstr_of_pc_le hp)
  · exact (cycle_of_some _ _ hs (nextInstr_of_pc_le hp)).trans (execWith_rndIn _ (s.begin _))

/-- Settles O16: the first step loads the latch, and of the instructions wait-key alone writes it, clearing a bit. -/
theorem keyLatchIsReplacedEveryCycle : Obligations.KeyLatchIsReplacedEveryCycle := by
  intro keysIn rndIn s t hs e
  obtain ⟨⟨f, hf⟩, -⟩ | ⟨-, f, -, rfl⟩ | ⟨-, i, hi, c⟩ := cycle_inv e
  · simp [hs] at hf
  · exact ⟨fun _ => rfl, fun _ h => h⟩
  · refine ⟨fun hw => ?_, fun k h => c.keyHeld_imp h⟩
    obtain hk | ⟨x, rfl⟩ := c.key_eq_or
    · exact hk
    · exact absurd hi (hw x)

/-- Settles O17: random alone is executed with the byte. -/
theorem randomByteReachesOnlyRandom : Obligations.RandomByteReachesOnlyRandom := by
  intro keysIn r1 r2 s t1 t2 hr e1 e2
  have same : cycle keysIn r1 s = cycle keysIn r2 s := by
    cases hs : s.fault with
    | some f => rw [cycle_of_fault _ _ hs, cycle_of_fault _ _ hs]
    | none =>
      cases hn : nextInstr s with
      | none => rw [cycle_of_none _ _ hs hn, cycle_of_none _ _ hs hn]
      | some i =>
        have hi : ∀ x kk, i ≠ .random x kk := fun x kk e => hr x kk (hn.trans (congrArg some e))
        rw [cycle_of_some _ _ hs hn, cycle_of_some _ _ hs hn, execWith_of_ne_random _ _ hi, execWith_of_ne_random _ _ hi]
  rw [e1, e2] at same
  cases same
  rfl

/-- Settles O18: pc stays where the cycle is frozen or faults, and otherwise goes where `Completes.pc_cases` says. -/
theorem pcMovesOnlyByTheFourDirectives : Obligations.PcMovesOnlyByTheFourDirectives := by
  intro keysIn rndIn s t e
  obtain ⟨-, rfl⟩ | ⟨-, f, -, rfl⟩ | ⟨-, i, hi, c⟩ := cycle_inv e
  · exact .inl rfl
  · exact .inl rfl
  · simp only [hi, Option.some.injEq]
    exact c.pc_cases

/-- Settles O19: where the cycle is frozen or faults each unit is as it was. -/
theorem onlyTheNamedInstructionsWriteEachUnit : Obligations.OnlyTheNamedInstructionsWriteEachUnit := by
  intro keysIn rndIn s t e
  obtain ⟨-, rfl⟩ | ⟨-, f, -, rfl⟩ | ⟨-, i, hi, c⟩ := cycle_inv e
  · simp
  · exact ⟨absurd rfl, absurd rfl, absurd rfl, absurd rfl, fun ⟨_, ha⟩ => absurd rfl ha⟩
  · simp only [hi, Option.some.injEq]
    exact ⟨c.i_eq_or.resolve_left, c.sp_eq_or.resolve_left, c.stack_eq_or.resolve_left, c.fb_eq_or.resolve_left,
      fun ⟨a, ha⟩ => c.mem_eq_or.resolve_left fun h => ha (State.readMem_congr h a)⟩

/-- Settles O36: a flag writer that raises no fault completes. -/
theorem vfIsWrittenOnlyAsR21Says : Obligations.VFIsWrittenOnlyAsR21Says := by
  intro i s t e
  rw [← execWith_rndIn] at e
  obtain ⟨f, hf, rfl⟩ | ⟨-, c⟩ := execWith_inv e
  · exact ⟨fun _ h => by simp [hf] at h, fun _ _ => rfl⟩
  · refine ⟨fun h _ => ?_, c.readV_VF_eq⟩
    obtain ⟨f, hf⟩ := c.readV_VF_of_isFlagWriter h
    exact hf ▸ flagByte_zero_or_one f

/-- Settles O51: random writes its register from the byte, and no other instruction is given it. -/
theorem execTakesTheFreeRandomByte : Obligations.ExecTakesTheFreeRandomByte :=
  ⟨execWith_rndIn, fun b _ s h => execWith_of_ne_random b s h,
    fun x kk s => ⟨_, rfl, by simp, rfl, keeps_writeV s x _⟩⟩

end Sys2Proof.Machine
end

section
/-! SUPPORT. What store-regs leaves when its block lies in memory (spec/43_index_memory.md rule R144). -/

namespace Sys2Proof.Machine

/-- A store-regs whose last address is in range writes the block V0 to VX at I and moves on (R144). -/
theorem exec_storeRegs_of_le {x : Reg} {s : State} (h : s.i.toNat + x.toNat ≤ 0x0FFF) :
    exec (.storeRegs x) s = .next (State.apply { s with mem := s.mem.writeBytes s.i.toNat (s.blockV x) } .next) := by
  have hb : (s.blockV x).length = 0 ∨ s.i.toNat + (s.blockV x).length ≤ memSize := by
    rw [State.blockV_length, memSize]; omega
  show execStoreRegs x s = _
  rw [execStoreRegs, State.storeAtI_eq_some.2 ⟨hb, rfl⟩]; rfl

/-- Byte `r` of a register block written at `a` is V[r] (R53, R144). -/
theorem Memory.read_writeBytes_blockV (m : Memory) (a : Nat) (s : State) {x r : Reg} (h : r.toNat ≤ x.toNat) :
    (m.writeBytes a (s.blockV x)).read (a + r.toNat) = s.readV r := by
  rw [Memory.read_writeBytes, State.blockV_length, if_pos (by omega), Nat.add_sub_cancel_left, State.blockV_getD s x r h]

end Sys2Proof.Machine
end

section
/-! SETTLED. The statement about memory (spec/20_memory.md). -/

namespace Sys2Proof.Machine

/-- Settles O45: the two bytes the next fetch reads are bytes `r` and `q` of the block just stored. -/
theorem aStoreIsSeenByTheNextFetch : Obligations.AStoreIsSeenByTheNextFetch := by
  intro x r q s hx hqx hqr hpc
  refine ⟨_, exec_storeRegs_of_le hx, ?_⟩
  have hq : (s.pc + 2).toNat + 1 = s.i.toNat + q.toNat := by omega
  have hle : ¬ 0x0FFE < (s.pc + 2).toNat := by omega
  rw [State.fetch_eq_ite, State.apply_next_pc, if_neg hle, hq, hpc]
  simp only [State.readMem, State.apply_mem]
  rw [Memory.read_writeBytes_blockV _ _ s (by omega), Memory.read_writeBytes_blockV _ _ s hqx]

end Sys2Proof.Machine
end

section
/-! SUPPORT. The opcode table and the decoder, field by field (spec/30_encoding.md rules R74 to R83): what each mask of the table reads of a
word, which words select a row, and that every decoded instruction stands for its word. -/

namespace Sys2Proof

/-! ### The word of an instruction, from the fields of the word decoded (R72) -/

theorem wordNNN_of_fields {w : Word} {c : Nibble} {nnn : Addr12} (hc : fieldClass w = c) (hn : fieldNNN w = nnn) :
    wordNNN c nnn = w := by
  rw [← hc, ← hn, wordNNN_fields]

theorem wordXKK_of_fields {w : Word} {c : Nibble} {kk : Byte} (hc : fieldClass w = c) (hk : fieldKK w = kk) :
    wordXKK c (fieldX w) kk = w := by
  rw [← hc, ← hk, wordXKK_fields]

theorem wordXYN_of_fields {w : Word} {c n : Nibble} (hc : fieldClass w = c) (hn : fieldN w = n) :
    wordXYN c (fieldX w) (fieldY w) n = w := by
  rw [← hc, ← hn, wordXYN_fields]

theorem fieldKK_eq_fieldKK_iff {u w : Word} : fieldKK u = fieldKK w ↔ fieldY u = fieldY w ∧ fieldN u = fieldN w := by
  have hY (v : Word) : fieldY v = (fieldKK v).extractLsb' 4 4 := by
    simpa only [wordXKK_fields] using fieldY_wordXKK (fieldClass v) (fieldX v) (fieldKK v)
  have hN (v : Word) : fieldN v = (fieldKK v).extractLsb' 0 4 := by
    simpa only [wordXKK_fields] using fieldN_wordXKK (fieldClass v) (fieldX v) (fieldKK v)
  exact ⟨fun h => ⟨by rw [hY, h, ← hY], by rw [hN, h, ← hN]⟩,
    fun ⟨hy, hn⟩ => by rw [← joinYN_fields, hy, hn, joinYN_fields]⟩

/-! ### The four masks of the table (R83). The pattern's fields stand as `extractLsb'`, which `simp` evaluates on a literal. -/

/-- The mask of R76 keeps the whole word. -/
theorem and_FFFF_eq_iff (w p : Word) :
    w &&& 0xFFFF#16 = p ↔ fieldClass w = p.extractLsb' 12 4 ∧ fieldNNN w = p.extractLsb' 0 12 := by
  have hw : w &&& 0xFFFF#16 = w := BitVec.and_allOnes
  rw [hw]
  exact ⟨by rintro rfl; exact ⟨rfl, rfl⟩, fun ⟨hc, hn⟩ => (wordNNN_of_fields hc hn).symm.trans (wordNNN_fields p)⟩

/-- The mask of R75 keeps the class nibble. -/
theorem and_F000_eq_iff (w : Word) {p : Word} (hp : p &&& 0xF000#16 = p) :
    w &&& 0xF000#16 = p ↔ fieldClass w = p.extractLsb' 12 4 := by
  have hm : fieldClass 0xF000#16 = .allOnes 4 ∧ fieldX 0xF000#16 = 0#4 ∧ fieldY 0xF000#16 = 0#4 ∧ fieldN 0xF000#16 = 0#4 := by
    decide
  simp only [word_and_eq_iff, hm, BitVec.and_allOnes, BitVec.and_zero] at hp ⊢
  exact ⟨fun ⟨hc, _⟩ => hc, fun hc => ⟨hc, hp.2⟩⟩

/-- The mask of R77 and R78 keeps the class nibble and N. -/
theorem and_F00F_eq_iff (w : Word) {p : Word} (hp : p &&& 0xF00F#16 = p) :
    w &&& 0xF00F#16 = p ↔ fieldClass w = p.extractLsb' 12 4 ∧ fieldN w = p.extractLsb' 0 4 := by
  have hm : fieldClass 0xF00F#16 = .allOnes 4 ∧ fieldX 0xF00F#16 = 0#4 ∧ fieldY 0xF00F#16 = 0#4 ∧
    fieldN 0xF00F#16 = .allOnes 4 := by decide
  simp only [word_and_eq_iff, hm, BitVec.and_allOnes, BitVec.and_zero] at hp ⊢
  obtain ⟨-, hx, hy, -⟩ := hp
  exact ⟨fun ⟨hc, _, _, hn⟩ => ⟨hc, hn⟩, fun ⟨hc, hn⟩ => ⟨hc, hx, hy, hn⟩⟩

/-- The mask of R79 keeps the class nibble and KK. -/
theorem and_F0FF_eq_iff (w : Word) {p : Word} (hp : p &&& 0xF0FF#16 = p) :
    w &&& 0xF0FF#16 = p ↔ fieldClass w = p.extractLsb' 12 4 ∧ fieldKK w = p.extractLsb' 0 8 := by
  have hm : fieldClass 0xF0FF#16 = .allOnes 4 ∧ fieldX 0xF0FF#16 = 0#4 ∧ fieldY 0xF0FF#16 = .allOnes 4 ∧
    fieldN 0xF0FF#16 = .allOnes 4 := by decide
  simp only [word_and_eq_iff, hm, BitVec.and_allOnes, BitVec.and_zero, ← fieldKK_eq_fieldKK_iff] at hp ⊢
  exact ⟨fun ⟨hc, _, hk⟩ => ⟨hc, hk⟩, fun ⟨hc, hk⟩ => ⟨hc, hp.2.1, hk⟩⟩

/-! ### Which words select a row -/

/-- The words of rules R75 to R79, by the values listed for their selector fields. -/
theorem matchesTable_iff (w : Word) : matchesTable w = true ↔
    fieldClass w = 0x0#4 ∧ fieldNNN w ∈ [0x0E0#12, 0x0EE#12] ∨
    fieldClass w ∈ [0x1#4, 0x2#4, 0x3#4, 0x4#4, 0x6#4, 0x7#4, 0xA#4, 0xB#4, 0xC#4, 0xD#4] ∨
    fieldClass w = 0x5#4 ∧ fieldN w = 0x0#4 ∨
    fieldClass w = 0x8#4 ∧ fieldN w ∈ [0x0#4, 0x1#4, 0x2#4, 0x3#4, 0x4#4, 0x5#4, 0x6#4, 0x7#4, 0xE#4] ∨
    fieldClass w = 0x9#4 ∧ fieldN w = 0x0#4 ∨
    fieldClass w = 0xE#4 ∧ fieldKK w ∈ [0x9E#8, 0xA1#8] ∨
    fieldClass w = 0xF#4 ∧
      fieldKK w ∈ [0x07#8, 0x0A#8, 0x15#8, 0x18#8, 0x1E#8, 0x29#8, 0x33#8, 0x55#8, 0x65#8] := by
  simp [matchesTable, rows, rowsClass0, rowsClassOnly, rowsByN, rowsByKK, Row.selects, and_FFFF_eq_iff, and_F000_eq_iff,
    and_F00F_eq_iff, and_F0FF_eq_iff, and_or_left, or_assoc]

theorem matchesTable_eq_false_iff (w : Word) : matchesTable w = false ↔ ∀ r ∈ rows, ¬ (w &&& r.mask = r.pattern) := by
  simp [matchesTable, Row.selects]

/-- Two rows whose patterns agree wherever both masks look are one row. -/
theorem rows_eq_of_patterns_agree :
    ∀ r ∈ rows, ∀ q ∈ rows, r.pattern &&& q.mask = q.pattern &&& r.mask → r = q := by
  decide

/-- The word of an instruction other than the unmatched one selects a row. -/
theorem matchesTable_encode {i : Instr} (h : ∀ w, i ≠ .unmatched w) : matchesTable (encode i) = true := by
  cases i with
  | unmatched w => exact absurd rfl (h w)
  | clearScreen | ret => decide
  | _ => simp [matchesTable_iff, encode]

/-! ### The decoders of the classes that need further fields (R76, R78, R79) -/

theorem decodeClass0_eq_ite (w : Word) : decodeClass0 w =
    if fieldNNN w = 0x0E0#12 then .clearScreen else if fieldNNN w = 0x0EE#12 then .ret else .unmatched w := by
  unfold decodeClass0
  split <;> simp_all

theorem decodeClass8_eq_ite (w : Word) : decodeClass8 w =
    if fieldN w = 0x0#4 then .loadReg (fieldX w) (fieldY w) else if fieldN w = 0x1#4 then .orReg (fieldX w) (fieldY w)
    else if fieldN w = 0x2#4 then .andReg (fieldX w) (fieldY w) else if fieldN w = 0x3#4 then .xorReg (fieldX w) (fieldY w)
    else if fieldN w = 0x4#4 then .addReg (fieldX w) (fieldY w) else if fieldN w = 0x5#4 then .subReg (fieldX w) (fieldY w)
    else if fieldN w = 0x6#4 then .shiftRight (fieldX w) (fieldY w) else if fieldN w = 0x7#4 then .subnReg (fieldX w) (fieldY w)
    else if fieldN w = 0xE#4 then .shiftLeft (fieldX w) (fieldY w) else .unmatched w := by
  unfold decodeClass8
  split <;> simp_all

theorem decodeClassE_eq_ite (w : Word) : decodeClassE w =
    if fieldKK w = 0x9E#8 then .skipKeyPressed (fieldX w) else if fieldKK w = 0xA1#8 then .skipKeyNotPressed (fieldX w)
    else .unmatched w := by
  unfold decodeClassE
  split <;> simp_all

theorem decodeClassF_eq_ite (w : Word) : decodeClassF w =
    if fieldKK w = 0x07#8 then .getDelay (fieldX w) else if fieldKK w = 0x0A#8 then .waitKey (fieldX w)
    else if fieldKK w = 0x15#8 then .setDelay (fieldX w) else if fieldKK w = 0x18#8 then .setSound (fieldX w)
    else if fieldKK w = 0x1E#8 then .addIndex (fieldX w) else if fieldKK w = 0x29#8 then .fontAddress (fieldX w)
    else if fieldKK w = 0x33#8 then .storeBcd (fieldX w) else if fieldKK w = 0x55#8 then .storeRegs (fieldX w)
    else if fieldKK w = 0x65#8 then .loadRegs (fieldX w) else .unmatched w := by
  unfold decodeClassF
  split <;> simp_all

/-! ### A decoded instruction stands for its word -/

/-- The instruction is well formed and its word is `w`. -/
def Instr.StandsFor (i : Instr) (w : Word) : Prop := i.wellFormed = true ∧ encode i = w

theorem Instr.unmatched_standsFor {w : Word} (h : ¬ matchesTable w = true) : (Instr.unmatched w).StandsFor w :=
  ⟨by simpa [Instr.wellFormed] using h, rfl⟩

theorem decodeClass0_standsFor {w : Word} (h : fieldClass w = 0x0#4) : (decodeClass0 w).StandsFor w := by
  rw [decodeClass0_eq_ite]
  split_ifs with hn hn
  · exact ⟨rfl, wordNNN_of_fields h hn⟩
  · exact ⟨rfl, wordNNN_of_fields h hn⟩
  · exact Instr.unmatched_standsFor (by simp [matchesTable_iff, *])

theorem decodeClass8_standsFor {w : Word} (h : fieldClass w = 0x8#4) : (decodeClass8 w).StandsFor w := by
  rw [decodeClass8_eq_ite]
  split_ifs
  case neg => exact Instr.unmatched_standsFor (by simp [matchesTable_iff, *])
  all_goals exact ⟨rfl, wordXYN_of_fields h ‹_›⟩

theorem decodeClassE_standsFor {w : Word} (h : fieldClass w = 0xE#4) : (decodeClassE w).StandsFor w := by
  rw [decodeClassE_eq_ite]
  split_ifs
  case neg => exact Instr.unmatched_standsFor (by simp [matchesTable_iff, *])
  all_goals exact ⟨rfl, wordXKK_of_fields h ‹_›⟩

theorem decodeClassF_standsFor {w : Word} (h : fieldClass w = 0xF#4) : (decodeClassF w).StandsFor w := by
  rw [decodeClassF_eq_ite]
  split_ifs
  case neg => exact Instr.unmatched_standsFor (by simp [matchesTable_iff, *])
  all_goals exact ⟨rfl, wordXKK_of_fields h ‹_›⟩

/-- Class by class: the four with a decoder of their own, the two selected by N = 0, and the ten that need no further field. -/
theorem decode_standsFor (w : Word) : (decode w).StandsFor w := by
  unfold decode
  split
  case h_1 h => exact decodeClass0_standsFor h
  case h_9 h => exact decodeClass8_standsFor h
  case h_15 h => exact decodeClassE_standsFor h
  case h_16 =>
    simp only [imp_false] at *
    exact decodeClassF_standsFor (by bv_omega)
  case h_6 h | h_10 h =>
    split_ifs with hn
    · exact ⟨rfl, wordXYN_of_fields h hn⟩
    · exact Instr.unmatched_standsFor (by simpa [matchesTable_iff, h] using hn)
  case h_2 h | h_3 h | h_11 h | h_12 h => exact ⟨rfl, wordNNN_of_fields h rfl⟩
  case h_4 h | h_5 h | h_7 h | h_8 h | h_13 h => exact ⟨rfl, wordXKK_of_fields h rfl⟩
  case h_14 h => exact ⟨rfl, wordXYN_of_fields h rfl⟩

/-- A word decodes to `unmatched` exactly when it selects no row: else the decoded instruction, whose word it is, would be another. -/
theorem decode_eq_unmatched_iff (w : Word) : decode w = .unmatched w ↔ matchesTable w = false := by
  obtain ⟨hwf, he⟩ := decode_standsFor w
  constructor <;> intro h
  · simpa [h, Instr.wellFormed] using hwf
  · by_contra hne
    have hm : matchesTable (encode (decode w)) = true := matchesTable_encode fun u hu => hne (by
      rw [hu] at he ⊢
      exact congrArg _ he)
    rw [he, h] at hm
    cases hm

end Sys2Proof
end

section
/-! SETTLED. The statements about the decoder and the encoder (spec/30_encoding.md). -/

namespace Sys2Proof

/-- Settles O4: the fields of a word put together are the fields put in, and a word that selects no row decodes to `unmatched`. -/
theorem decodeOfEncodeIsTheInstruction : Obligations.DecodeOfEncodeIsTheInstruction := by
  intro i h
  cases i with
  | unmatched w => exact (decode_eq_unmatched_iff w).2 (by simpa [Instr.wellFormed] using h)
  | clearScreen | ret => rfl
  | _ => simp [encode, decode, decodeClass8_eq_ite, decodeClassE_eq_ite, decodeClassF_eq_ite]

/-- Settles O5: every decoded instruction stands for its word. -/
theorem encodeOfDecodeIsTheWord : Obligations.EncodeOfDecodeIsTheWord := decode_standsFor

/-- Settles O6: on a word that selects both rows, the two patterns agree wherever both masks look. -/
theorem tableRowsNeverOverlapAndDecodeFollowsThem : Obligations.TableRowsNeverOverlapAndDecodeFollowsThem := by
  refine ⟨fun w r hr q hq hrw hqw => rows_eq_of_patterns_agree r hr q hq ?_,
    fun w => (decode_eq_unmatched_iff w).trans (matchesTable_eq_false_iff w), rfl⟩
  simp only [Row.selects, beq_iff_eq] at hrw hqw
  calc r.pattern &&& q.mask
      = w &&& r.mask &&& q.mask := by rw [hrw]
    _ = w &&& q.mask &&& r.mask := by ac_rfl
    _ = q.pattern &&& r.mask := by rw [hqw]

/-- Settles O7: the class nibble of the word is the class put in, and the operand fields are the operands. -/
theorem classNibbleSelectsTenInstructions : Obligations.ClassNibbleSelectsTenInstructions := fun x y n kk nnn => by
  simp [decode]

/-- Settles O8: class 0 reads NNN, classes 5, 8 and 9 read N. -/
theorem furtherFieldsSelectInClasses0589 : Obligations.FurtherFieldsSelectInClasses0589 :=
  ⟨fun nnn => by simp [decode, decodeClass0_eq_ite], fun x y n => by simp [decode], fun x y n => by simp [decode],
    fun x y n => by simp [decode, decodeClass8_eq_ite]⟩

/-- Settles O9: classes E and F read KK. -/
theorem trailingByteSelectsInClassesEAndF : Obligations.TrailingByteSelectsInClassesEAndF :=
  ⟨fun x kk => by simp [decode, decodeClassE_eq_ite], fun x kk => by simp [decode, decodeClassF_eq_ite]⟩

/-- Settles O10: the decoder runs on each of the eight words. -/
theorem spelledWordsDecode : Obligations.SpelledWordsDecode := ⟨rfl, rfl, rfl, rfl, rfl, rfl, rfl, rfl⟩

end Sys2Proof

namespace Sys2Proof.Machine

open Sys2Proof.Safety

/-- Steps 1 and 2 of the cycle write the key latch, the timers and the counter of cycles alone (R41). -/
theorem keeps_begin (s : State) (keysIn : BitVec 16) :
    KeepsAllBut (fun p => p ∈ [.dt, .st, .inputs] ∨ ∃ k, p = .key k) s (s.begin keysIn) := by
  intro p hp
  cases p with
  | key k => exact absurd (.inr ⟨k, rfl⟩) hp
  | dt | st | inputs => simp at hp
  | _ => rfl

/-- Settles O29: an unmatched word is the directive `next` alone, in its cycle after the first two steps. -/
theorem unmatchedWordsOnlyAdvance : Obligations.UnmatchedWordsOnlyAdvance := by
  refine ⟨fun w s => ⟨_, rfl, rfl, keeps_apply s .next⟩, fun keysIn rndIn w s hs hn => ?_⟩
  refine ⟨_, cycle_of_some keysIn rndIn hs hn, rfl, rfl, countDown_toNat s.dt, countDown_toNat s.st, ?_⟩
  exact keepsAllBut_trans (keepsAllBut_mono (keeps_begin s keysIn) fun _ hp => hp.imp_left (List.mem_cons_of_mem _))
    (keepsAllBut_mono (keeps_apply (s.begin keysIn) .next) fun _ hp => .inl (List.mem_singleton.1 hp ▸ List.mem_cons_self))

end Sys2Proof.Machine
end

section
/-! SUPPORT. What call and return do at each depth of the stack, and the skips with their conditions read as numbers
(spec/40_control_flow.md rules R91 to R97). -/

namespace Sys2Proof.Machine

open Sys2Proof.Safety

/-- Executing an instruction for which the table of R170 names a fault latches that fault and does nothing else (R176). -/
theorem exec_of_faultOf {i : Instr} {s : State} {f : FaultRecord} (h : faultOf i s = some f) :
    exec i s = .next { s with fault := some f } := by
  rw [← execWith_rndIn, execWith_of_faultOf _ h]

/-! ### Call and return (R91, R93) -/

/-- A call with entry `k` the first that is not in use. -/
theorem exec_call_of_sp (nnn : Addr12) {s : State} (k : Fin 16) (h : s.sp.val = k.val) :
    exec (.call nnn) s =
      .next (State.apply { s with stack := s.stack.set k.val (s.pc + 2), sp := k.succ } (.jump (zextAddr nnn))) := by
  show execCall nnn s = _
  rw [execCall, State.push_of_lt _ k h]; rfl

/-- A return with entry `k` the newest. -/
theorem exec_ret_of_sp {s : State} (k : Fin 16) (h : s.sp.val = k.val + 1) :
    exec .ret s = .next (State.apply { s with sp := k.castSucc } (.jump s.stack[k.val])) := by
  show execRet s = _
  rw [execRet, State.pop_of_eq k h]; rfl

/-- Writing one entry of the stack, SP and pc leaves the rest. -/
theorem keeps_setStack (s : State) (k : Fin 16) (w : Word) (sp : Fin 17) (d : Directive) :
    KeepsAllButList [.pc, .sp, .stack k] s (State.apply { s with stack := s.stack.set k.val w, sp := sp } d) := by
  intro p hp
  cases p with
  | stack j =>
    have hj : k.val ≠ j.val := fun e => hp (by simp [Fin.ext e])
    simp [Part.Same, Vector.getElem_set_ne _ _ hj]
  | pc | sp => simp at hp
  | _ => cases d <;> rfl

/-- Writing SP and pc leaves the rest, every entry of the stack included. -/
theorem keeps_setSp (s : State) (sp : Fin 17) (d : Directive) :
    KeepsAllButList [.pc, .sp] s (State.apply { s with sp := sp } d) := by
  intro p hp
  cases p with
  | pc | sp => simp at hp
  | _ => cases d <;> rfl

/-! ### Skips (R94 to R97) -/

/-- The skip on equality, its two bytes compared as numbers. -/
theorem skipIf_beq_cases (a b : Byte) (s : State) : ∃ t, skipIf (a == b) s = .next t ∧ KeepsAllButList [.pc] s t ∧
    (a.toNat = b.toNat → t.pc = s.pc + 4) ∧ (a.toNat ≠ b.toNat → t.pc = s.pc + 2) := by
  simpa only [beq_iff_eq, beq_eq_false_iff_ne, ne_eq, BitVec.toNat_inj] using skipIf_cases (a == b) s

/-- The skip on inequality, its two bytes compared as numbers. -/
theorem skipIf_bne_cases (a b : Byte) (s : State) : ∃ t, skipIf (a != b) s = .next t ∧ KeepsAllButList [.pc] s t ∧
    (a.toNat ≠ b.toNat → t.pc = s.pc + 4) ∧ (a.toNat = b.toNat → t.pc = s.pc + 2) := by
  simpa only [bne_iff_ne, bne_eq_false_iff_eq, ne_eq, BitVec.toNat_inj] using skipIf_cases (a != b) s

end Sys2Proof.Machine
end

section
/-! SETTLED. The statements about control flow (spec/40_control_flow.md). -/

namespace Sys2Proof.Machine

open Sys2Proof.Safety

/-- Settles O24: a free entry takes the pushed address, and with SP = 16 the table of R170 names STACK_OVERFLOW. -/
theorem callPushesTheReturnAddress : Obligations.CallPushesTheReturnAddress := by
  refine fun nnn s => ⟨fun k hk => ?push, fun h16 => ?overflow⟩
  case push =>
    exact ⟨_, exec_call_of_sp nnn k hk, by simp, by simp, by simp, keeps_setStack s k _ _ _⟩
  case overflow =>
    have hf : faultOf (.call nnn) s = some ⟨.stackOverflow, s.pc⟩ := if_pos h16
    exact ⟨_, exec_of_faultOf hf, rfl, keeps_fault s _⟩

/-- Settles O25: an entry in use is jumped to, and with SP = 0 the table of R170 names STACK_UNDERFLOW. -/
theorem returnGoesToTheNewestEntry : Obligations.ReturnGoesToTheNewestEntry := by
  refine fun s => ⟨fun k hk => ?pop, fun h0 => ?underflow⟩
  case pop =>
    exact ⟨_, exec_ret_of_sp k hk, rfl, rfl, keeps_setSp s _ _⟩
  case underflow =>
    have hf : faultOf .ret s = some ⟨.stackUnderflow, s.pc⟩ := if_pos h0
    exact ⟨_, exec_of_faultOf hf, rfl, keeps_fault s _⟩

/-- Settles O26: the entry the return jumps to is the one the call wrote, by O24 and O25. -/
theorem returnPairsWithItsCall : Obligations.ReturnPairsWithItsCall := by
  intro nnn s t u k hs hcall hu hentry
  obtain ⟨t', ht', hpushed, -⟩ := (callPushesTheReturnAddress nnn s).1 k hs
  obtain rfl : t' = t := by simpa [ht'] using hcall
  obtain ⟨w, hw, hpc, hsp, hkeep⟩ := (returnGoesToTheNewestEntry u).1 k hu
  exact ⟨w, hw, hpc.trans (hentry.trans hpushed), Fin.ext (hsp.trans hs.symm), hkeep⟩

/-- Settles O22: the target is NNN, zero-extended. -/
theorem jumpGoesToTheAddress : Obligations.JumpGoesToTheAddress := fun nnn s =>
  ⟨_, rfl, zextAddr_toNat nnn, keeps_apply s _⟩

/-- Settles O23: 0xFFF + 0xFF lies below 65536, so the 16-bit sum is the sum. -/
theorem jumpOffsetAddsV0 : Obligations.JumpOffsetAddsV0 := by
  refine fun nnn s => ⟨_, rfl, ?_, keeps_apply s _⟩
  have hn := nnn.isLt
  have hv := (s.readV V0).isLt
  rw [State.apply_jump_pc, BitVec.toNat_add, zextAddr_toNat, zextByte_toNat]
  omega

/-- Settles O27: the two skips compare V[X] with the immediate. -/
theorem immediateSkipsCompareAndMovePc : Obligations.ImmediateSkipsCompareAndMovePc := fun x kk s =>
  ⟨skipIf_beq_cases (s.readV x) kk s, skipIf_bne_cases (s.readV x) kk s⟩

/-- Settles O28: the two skips compare V[X] with V[Y], which are one register when X = Y. -/
theorem registerSkipsCompareAndMovePc : Obligations.RegisterSkipsCompareAndMovePc := by
  intro x y s
  obtain ⟨t, ht, hkeep, heq, hne⟩ := skipIf_beq_cases (s.readV x) (s.readV y) s
  obtain ⟨u, hu, hkeep', hne', heq'⟩ := skipIf_bne_cases (s.readV x) (s.readV y) s
  have same : x = y → (s.readV x).toNat = (s.readV y).toNat := fun e => e ▸ rfl
  exact ⟨⟨t, ht, hkeep, heq, hne, fun e => heq (same e)⟩, ⟨u, hu, hkeep', hne', heq', fun e => heq' (same e)⟩⟩

end Sys2Proof.Machine
end

section
/-! SUPPORT. What an instruction that writes one register, or a result with its flag, leaves behind, and the flags read as numbers
(spec/41_alu.md rules R110 to R122, spec/10_state.md rules R21 and R22). -/

namespace Sys2Proof.Machine

open Sys2Proof.Safety

/-! ### Flags (R110) -/

theorem flagByte_toNat (f : Bool) : (flagByte f).toNat = f.toNat := by cases f <;> rfl

theorem flagByte_decide_of {p : Prop} [Decidable p] (h : p) : flagByte (decide p) = 1 := by rw [decide_eq_true h]; rfl

theorem flagByte_decide_of_not {p : Prop} [Decidable p] (h : ¬ p) : flagByte (decide p) = 0 := by rw [decide_eq_false h]; rfl

/-- The bit shift-right captures is the remainder of the halving. -/
theorem flagByte_lowBitFlag_toNat (a : Byte) : (flagByte (lowBitFlag a)).toNat = a.toNat % 2 := by
  rw [flagByte_toNat, lowBitFlag, BitVec.getLsbD, Nat.toNat_testBit, Nat.pow_zero, Nat.div_one]

/-- The bit shift-left captures is the carry of the doubling. -/
theorem flagByte_highBitFlag_toNat (a : Byte) : (flagByte (highBitFlag a)).toNat = a.toNat / 128 := by
  have ha := a.isLt
  rw [flagByte_toNat, highBitFlag, BitVec.getLsbD, Nat.toNat_testBit]
  omega

/-! ### The two ways an ALU instruction ends -/

/-- One destination register and no flag. -/
theorem finish_writeV_spec (s : State) (x : Reg) (b : Byte) : ∃ t, finish .next (s.writeV x b) = .next t ∧
    t.readV x = b ∧ t.pc = s.pc + 2 ∧ KeepsAllButList [.pc, .v x] s t :=
  ⟨_, rfl, by rw [State.readV_apply, State.readV_writeV_self], rfl, keeps_writeV s x b⟩

/-- A result and its flag: VF holds the flag whatever the destination, and a destination other than VF holds the result (R22, D8). -/
theorem finish_writeResultFlag_spec (s : State) (x : Reg) (b : Byte) (f : Bool) :
    ∃ t, finish .next (s.writeResultFlag x b f) = .next t ∧ t.readV VF = flagByte f ∧ (x ≠ VF → t.readV x = b) ∧
      t.pc = s.pc + 2 ∧ KeepsAllButList [.pc, .v x, .v VF] s t := by
  refine ⟨_, rfl, ?flag, fun hx => ?result, rfl, keeps_writeResultFlag s x b f⟩
  case flag => rw [State.readV_apply, State.readV_writeResultFlag, if_pos rfl]
  case result => rw [State.readV_apply, State.readV_writeResultFlag, if_neg hx, if_pos rfl]

/-- A wrapping difference with the strict comparison as its flag, for either order of the operands (R118, R120). -/
theorem finish_difference_spec (s : State) (x : Reg) (a b : Byte) :
    ∃ t, finish .next (s.writeResultFlag x (a - b) (noBorrowFlag a b)) = .next t ∧
      (b.toNat < a.toNat → t.readV VF = 1) ∧ (a.toNat ≤ b.toNat → t.readV VF = 0) ∧
      (x ≠ VF → ((t.readV x).toNat : Int) = (a.toNat - b.toNat : Int) % 256) ∧
      t.pc = s.pc + 2 ∧ KeepsAllButList [.pc, .v x, .v VF] s t := by
  obtain ⟨t, ht, hflag, hres, hpc, hkeep⟩ := finish_writeResultFlag_spec s x (a - b) (noBorrowFlag a b)
  refine ⟨t, ht, fun h => hflag.trans (flagByte_decide_of h), fun h => hflag.trans (flagByte_decide_of_not h.not_gt),
    fun hx => ?_, hpc, hkeep⟩
  have hb := b.isLt
  rw [hres hx, BitVec.toNat_sub]
  omega

end Sys2Proof.Machine
end

section
/-! SETTLED. The statements about the registers and the ALU (spec/41_alu.md). -/

namespace Sys2Proof.Machine

/-- Settles O32: the flag is the carry of the unbounded sum, and the result is that sum modulo 256. -/
theorem addRegLeavesSumAndCarry : Obligations.AddRegLeavesSumAndCarry := by
  intro x y s
  obtain ⟨t, ht, hflag, hres, hpc, hkeep⟩ :=
    finish_writeResultFlag_spec s x (s.readV x + s.readV y) (carryFlag (s.readV x) (s.readV y))
  exact ⟨t, ht, fun h => hflag.trans (flagByte_decide_of h), fun h => hflag.trans (flagByte_decide_of_not h.not_gt),
    fun hx => by rw [hres hx, BitVec.toNat_add], hpc, hkeep⟩

/-- Settles O33: the two subtractions are one difference with its operands exchanged. -/
theorem subtractionsSetVFStrictly : Obligations.SubtractionsSetVFStrictly := fun x y s =>
  ⟨finish_difference_spec s x (s.readV x) (s.readV y), finish_difference_spec s x (s.readV y) (s.readV x)⟩

/-- Settles O34: the flag and the result are the two parts of Vx halved or doubled, and neither meaning reads Y. -/
theorem shiftsCaptureTheBitShiftedOut : Obligations.ShiftsCaptureTheBitShiftedOut := by
  refine fun x y s => ⟨?right, ?left, fun z => ⟨rfl, rfl⟩⟩
  case right =>
    obtain ⟨t, ht, hflag, hres, hpc, hkeep⟩ :=
      finish_writeResultFlag_spec s x (s.readV x >>> 1) (lowBitFlag (s.readV x))
    refine ⟨t, ht, by rw [hflag, flagByte_lowBitFlag_toNat], fun hx => ?_, hpc, hkeep⟩
    rw [hres hx, BitVec.toNat_ushiftRight, Nat.shiftRight_one]
  case left =>
    obtain ⟨t, ht, hflag, hres, hpc, hkeep⟩ :=
      finish_writeResultFlag_spec s x (s.readV x <<< 1) (highBitFlag (s.readV x))
    refine ⟨t, ht, by rw [hflag, flagByte_highBitFlag_toNat], fun hx => ?_, hpc, hkeep⟩
    rw [hres hx, BitVec.toNat_shiftLeft, Nat.shiftLeft_eq, Nat.pow_one, Nat.mul_comm]

/-- Settles O30: each writes its one destination, the add-imm with the sum modulo 256. -/
theorem movesAndImmediateAdd : Obligations.MovesAndImmediateAdd := by
  refine fun x y kk s => ⟨finish_writeV_spec s x kk, ?add, finish_writeV_spec s x (s.readV y)⟩
  obtain ⟨t, ht, hv, hpc, hkeep⟩ := finish_writeV_spec s x (s.readV x + kk)
  exact ⟨t, ht, by rw [hv, BitVec.toNat_add], hpc, hkeep⟩

/-- Settles O31: bit `k` of the result is the operation on bit `k` of the operands. -/
theorem bitwiseLogicWritesNoFlag : Obligations.BitwiseLogicWritesNoFlag := by
  refine fun x y s => ⟨?or, ?and, ?xor⟩
  case or =>
    obtain ⟨t, ht, hv, hrest⟩ := finish_writeV_spec s x (s.readV x ||| s.readV y)
    exact ⟨t, ht, fun k => by rw [hv, BitVec.getLsbD_or], hrest⟩
  case and =>
    obtain ⟨t, ht, hv, hrest⟩ := finish_writeV_spec s x (s.readV x &&& s.readV y)
    exact ⟨t, ht, fun k => by rw [hv, BitVec.getLsbD_and], hrest⟩
  case xor =>
    obtain ⟨t, ht, hv, hrest⟩ := finish_writeV_spec s x (s.readV x ^^^ s.readV y)
    exact ⟨t, ht, fun k => by rw [hv, BitVec.getLsbD_xor], hrest⟩

/-- Settles O35: the cycle runs random on the state its first two steps left, which holds the same V and pc. -/
theorem randomMasksTheInputByte : Obligations.RandomMasksTheInputByte := by
  have hexec (rndIn : Byte) (x : Reg) (kk : Byte) (s : State) := finish_writeV_spec s x (rndIn &&& kk)
  refine ⟨hexec, fun keysIn rndIn x kk s hs hn => ?_⟩
  obtain ⟨t, ht, hv, hpc, -⟩ := hexec rndIn x kk (s.begin keysIn)
  exact ⟨t, (cycle_of_some keysIn rndIn hs hn).trans ht, hv, hpc⟩

end Sys2Proof.Machine
end

section
/-! SUPPORT. What draw leaves behind, pixel by pixel and in VF, with the sprite read as the set of pixels `SpriteCovers`, and the frames of the
two display instructions (spec/42_display.md rules R130 and R131). -/

namespace Sys2Proof.Machine

open Sys2Proof.Safety

/-! ### The canvas of a draw (R131) -/

/-- The framebuffer and the collision flag that drawing the N bytes at I leaves, at the origin Vx and Vy name. -/
def State.drawCanvas (s : State) (x y : Reg) (n : Nibble) : Canvas :=
  drawRows ((s.readV x).toNat % 64) ((s.readV y).toNat % 32) (s.mem.readBytes s.i.toNat n.toNat) ⟨s.fb, false⟩

/-- The image of the sprite in the coordinates and bytes the loops use. -/
theorem spriteCovers_iff {s : State} {x y : Reg} {n : Nibble} {row : Fin 32} {col : Fin 64} :
    SpriteCovers s x y n row col ↔ ∃ r c, r < (s.mem.readBytes s.i.toNat n.toNat).length ∧ c < 8 ∧
      row = Fin.ofNat 32 ((s.readV y).toNat % 32 + r) ∧ col = Fin.ofNat 64 ((s.readV x).toNat % 64 + c) ∧
      ((s.mem.readBytes s.i.toNat n.toNat).getD r 0).getLsbD (7 - c) = true := by
  simp only [SpriteCovers, Memory.readBytes_length, Fin.ext_iff, Fin.val_ofNat]
  refine exists_congr fun r => exists_congr fun c => and_congr_right fun hr => ?_
  rw [Memory.readBytes_getD _ _ _ _ hr, State.readMem]

theorem State.drawCanvas_pixel (s : State) (x y : Reg) (n : Nibble) (row : Fin 32) (col : Fin 64) :
    (s.drawCanvas x y n).fb.pixel row col = true ↔ (s.fb.pixel row col = true ↔ ¬ SpriteCovers s x y n row col) := by
  have hn := n.isLt
  rw [State.drawCanvas, drawRows_pixel _ _ _ _ _ _ (by rw [Memory.readBytes_length]; omega), spriteCovers_iff]

/-- A pixel under the sprite is flipped. -/
theorem State.drawCanvas_pixel_of_covers {s : State} {x y : Reg} {n : Nibble} {row : Fin 32} {col : Fin 64}
    (h : SpriteCovers s x y n row col) : (s.drawCanvas x y n).fb.pixel row col = !s.fb.pixel row col := by
  rw [Bool.eq_iff_iff, State.drawCanvas_pixel, iff_false_right (not_not_intro h), Bool.not_eq_true', Bool.not_eq_true]

/-- A pixel outside the sprite is as before. -/
theorem State.drawCanvas_pixel_of_not_covers {s : State} {x y : Reg} {n : Nibble} {row : Fin 32} {col : Fin 64}
    (h : ¬ SpriteCovers s x y n row col) : (s.drawCanvas x y n).fb.pixel row col = s.fb.pixel row col := by
  rw [Bool.eq_iff_iff, State.drawCanvas_pixel, iff_true_right h]

theorem State.drawCanvas_hit (s : State) (x y : Reg) (n : Nibble) :
    (s.drawCanvas x y n).hit = true ↔ ∃ row col, SpriteCovers s x y n row col ∧ s.fb.pixel row col = true := by
  have hn := n.isLt
  rw [State.drawCanvas, drawRows_hit _ _ _ _ (by rw [Memory.readBytes_length]; omega)]
  simp only [Bool.false_eq_true, false_or, spriteCovers_iff]
  constructor
  · rintro ⟨r, c, hr, hc, hbit, hlit⟩
    exact ⟨_, _, ⟨r, c, hr, hc, rfl, rfl, hbit⟩, hlit⟩
  · rintro ⟨_, _, ⟨r, c, hr, hc, rfl, rfl, hbit⟩, hlit⟩
    exact ⟨r, c, hr, hc, hbit, hlit⟩

/-- The sprite and its place depend on Vx, Vy, I and memory alone. -/
theorem spriteCovers_congr {s t : State} {x y : Reg} {n : Nibble} (hx : t.readV x = s.readV x) (hy : t.readV y = s.readV y)
    (hi : t.i = s.i) (hm : ∀ a, t.readMem a = s.readMem a) (row : Fin 32) (col : Fin 64) :
    SpriteCovers t x y n row col ↔ SpriteCovers s x y n row col := by
  simp only [SpriteCovers, hx, hy, hi, hm]

/-! ### Where draw completes (R174) -/

theorem faultOf_draw_eq_none {x y : Reg} {n : Nibble} {s : State} :
    faultOf (.draw x y n) s = none ↔ n.toNat = 0 ∨ s.i.toNat + (n.toNat - 1) ≤ 0x0FFF := by
  rw [faultOf, ite_eq_right_iff]
  simp only [reduceCtorEq, imp_false]
  omega

/-- A draw whose last byte lies in memory leaves the canvas and, last, its flag. -/
theorem exec_draw_of_faultOf {x y : Reg} {n : Nibble} {s : State} (h : faultOf (.draw x y n) s = none) :
    exec (.draw x y n) s =
      .next ((State.writeV { s with fb := (s.drawCanvas x y n).fb } VF (flagByte (s.drawCanvas x y n).hit)).apply .next) := by
  have hr := faultOf_draw_eq_none.1 h
  have hl : s.loadAtI n.toNat = some (s.mem.readBytes s.i.toNat n.toNat) :=
    State.loadAtI_eq_some.2 ⟨by simp only [memSize]; omega, rfl⟩
  show execDraw x y n s = _
  rw [execDraw, spriteHeight, hl]; rfl

/-! ### Frames -/

/-- Clearing the framebuffer, with `next`, writes pixels and pc. -/
theorem keeps_clear (s : State) : KeepsAllBut (fun p => p = .pc ∨ ∃ row col, p = .pixel row col) s
    (State.apply { s with fb := Framebuffer.clear } .next) := by
  intro p hp
  cases p with
  | pixel row col => exact absurd (.inr ⟨row, col, rfl⟩) hp
  | pc => simp at hp
  | _ => rfl

/-- The canvas and its flag, with `next`, write the pixels under the sprite, VF and pc. -/
theorem keeps_drawCanvas (s : State) (x y : Reg) (n : Nibble) (b : Byte) :
    KeepsAllBut (fun p => p = .pc ∨ p = .v VF ∨ ∃ row col, SpriteCovers s x y n row col ∧ p = .pixel row col) s
      ((State.writeV { s with fb := (s.drawCanvas x y n).fb } VF b).apply .next) := by
  intro p hp
  cases p with
  | v r =>
    have hr : r ≠ VF := fun e => hp (.inr (.inl (congrArg Part.v e)))
    exact keeps_writeV { s with fb := (s.drawCanvas x y n).fb } VF b (.v r) (by simpa using hr)
  | pixel row col =>
    have hc : ¬ SpriteCovers s x y n row col := fun h => hp (.inr (.inr ⟨row, col, h, rfl⟩))
    exact State.drawCanvas_pixel_of_not_covers hc
  | pc => simp at hp
  | _ => rfl

end Sys2Proof.Machine
end

section
/-! SETTLED. The statements about the display (spec/42_display.md). -/

namespace Sys2Proof.Machine

open Sys2Proof.Safety

/-- Settles O37: the framebuffer is replaced whole. -/
theorem clearScreenUnlightsEveryPixel : Obligations.ClearScreenUnlightsEveryPixel := fun s =>
  ⟨_, rfl, Framebuffer.pixel_clear, rfl, keeps_clear s⟩

/-- Settles O38: the loops leave the canvas of the sprite, and beyond memory the table of R170 names DATA_RANGE. -/
theorem drawXorsTheSpriteAndReportsCollision : Obligations.DrawXorsTheSpriteAndReportsCollision := by
  refine fun x y n s => ⟨fun hr => ?inRange, fun h1 hr => ?beyond⟩
  case inRange =>
    refine ⟨_, exec_draw_of_faultOf (faultOf_draw_eq_none.2 hr), fun row col h => State.drawCanvas_pixel_of_covers h,
      fun h => ?lit, fun h => ?unlit, rfl, keeps_drawCanvas s x y n _⟩
    case lit => rw [State.readV_apply, State.readV_writeV_self, (s.drawCanvas_hit x y n).2 h]; rfl
    case unlit =>
      rw [State.readV_apply, State.readV_writeV_self, Bool.eq_false_iff.2 (mt (s.drawCanvas_hit x y n).1 h)]; rfl
  case beyond =>
    have hf : faultOf (.draw x y n) s = some ⟨.dataRange, s.i⟩ := if_pos ⟨h1, hr⟩
    exact ⟨_, exec_of_faultOf hf, rfl, keeps_fault s _⟩

/-- Settles O39: by the frame of the first draw (O38) the second draws the same sprite at the same place, and flips each of its pixels back. -/
theorem drawingTwiceRestoresTheFramebuffer : Obligations.DrawingTwiceRestoresTheFramebuffer := by
  intro x y n s t u hx hy hf hst htu
  have hr := faultOf_draw_eq_none.1 hf
  obtain ⟨t', ht', hflip, -, -, -, hkeep⟩ := (drawXorsTheSpriteAndReportsCollision x y n s).1 hr
  obtain rfl : t' = t := by simpa [ht'] using hst
  have hi : t'.i = s.i := hkeep .i (by simp)
  obtain ⟨u', hu', hflip', hlit, hunlit, -, hkeep'⟩ := (drawXorsTheSpriteAndReportsCollision x y n t').1 (hi ▸ hr)
  obtain rfl : u' = u := by simpa [hu'] using htu
  have hcov : ∀ row col, SpriteCovers t' x y n row col ↔ SpriteCovers s x y n row col :=
    spriteCovers_congr (hkeep (.v x) (by simp [hx])) (hkeep (.v y) (by simp [hy])) hi fun a => hkeep (.mem a) (by simp)
  have hcollision : (∃ row col, SpriteCovers t' x y n row col ∧ t'.fb.pixel row col = true) ↔
      ∃ row col, SpriteCovers s x y n row col ∧ s.fb.pixel row col = false := by
    refine exists_congr fun row => exists_congr fun col => ?_
    rw [hcov]
    exact and_congr_right fun h => by rw [hflip row col h, Bool.not_eq_true']
  refine ⟨fun row col => ?restored, ?flag⟩
  case restored =>
    by_cases h : SpriteCovers s x y n row col
    · rw [hflip' row col ((hcov row col).2 h), hflip row col h, Bool.not_not]
    · have h' := mt (hcov row col).1 h
      exact (hkeep' (.pixel row col) (by simpa using h')).trans (hkeep (.pixel row col) (by simpa using h))
  case flag =>
    rw [← hcollision]
    exact ⟨fun h1 => by_contra fun h => by simp [hunlit h] at h1, hlit⟩

end Sys2Proof.Machine
end

section
/-! SUPPORT. What the writers of I, store-bcd and load-regs leave behind, the bytes of a block that a store at I wrote and a load at I reads,
and the frames of the index and block instructions (spec/43_index_memory.md rules R140 to R145). -/

namespace Sys2Proof.Machine

open Sys2Proof.Safety

/-! ### The index register (R140 to R142) -/

/-- The address of a glyph does not wrap, FONT_BASE being below 0x200 (R8, R142). -/
theorem fontAddress_toNat (b : Byte) : (fontAddress b).toNat = Config.fontBase.val + 5 * b.toNat := by
  have hbase := Config.fontBase.isLt
  have hb := b.isLt
  have h5 : (5 : Word).toNat = 5 := rfl
  rw [fontAddress, BitVec.toNat_add, BitVec.toNat_mul, h5, zextByte_toNat, BitVec.toNat_ofNat]
  omega

/-- Writing I, with `next`, writes I and pc. -/
theorem keeps_writeI (s : State) (w : Word) : KeepsAllButList [.pc, .i] s (State.apply { s with i := w } .next) := by
  intro p hp
  cases p with
  | pc | i => simp at hp
  | _ => rfl

/-! ### A block beyond memory (R174) -/

/-- An instruction for which the table of R170 names a fault latches it and writes nothing else (R176). -/
theorem exec_of_faultOf_spec {i : Instr} {s : State} {f : FaultRecord} (h : faultOf i s = some f) :
    ∃ t, exec i s = .next t ∧ t.fault = some f ∧ KeepsAllButList [.fault] s t :=
  ⟨_, exec_of_faultOf h, rfl, keeps_fault s f⟩

/-! ### Stores at I (R143, R144) -/

/-- Byte `j` of the block a store at I wrote is entry `j` of the bytes stored. -/
theorem readMem_storeAtI (s : State) (bs : List Byte) {j : Nat} (h : j < bs.length) :
    (State.apply { s with mem := s.mem.writeBytes s.i.toNat bs } .next).readMem (s.i.toNat + j) = bs.getD j 0 := by
  rw [State.readMem_apply, State.readMem, Memory.read_writeBytes, if_pos (by omega), Nat.add_sub_cancel_left]

/-- The three digits as numbers: each fits a byte. -/
theorem bcdDigits_toNat (b : Byte) : ((bcdDigits b).getD 0 0).toNat = b.toNat / 100 ∧
    ((bcdDigits b).getD 1 0).toNat = b.toNat / 10 % 10 ∧ ((bcdDigits b).getD 2 0).toNat = b.toNat % 10 := by
  have hb := b.isLt
  exact ⟨Nat.mod_eq_of_lt (by omega), Nat.mod_eq_of_lt (by omega), Nat.mod_eq_of_lt (by omega)⟩

/-- A store-bcd whose last address is in range writes the three digits at I and moves on (R143). -/
theorem exec_storeBcd_of_le {x : Reg} {s : State} (h : s.i.toNat + 2 ≤ 0x0FFF) :
    exec (.storeBcd x) s =
      .next (State.apply { s with mem := s.mem.writeBytes s.i.toNat (bcdDigits (s.readV x)) } .next) := by
  have hb : s.i.toNat + (bcdDigits (s.readV x)).length ≤ memSize := by rw [bcdDigits_length, memSize]; omega
  show execStoreBcd x s = _
  rw [execStoreBcd, State.storeAtI_eq_some.2 ⟨.inr hb, rfl⟩]; rfl

/-! ### Loads at I (R145) -/

/-- A load-regs whose last address is in range writes the bytes at I to V0 to VX and moves on (R145). -/
theorem exec_loadRegs_of_le {x : Reg} {s : State} (h : s.i.toNat + x.toNat ≤ 0x0FFF) :
    exec (.loadRegs x) s = .next ((s.writeBlockV (s.mem.readBytes s.i.toNat (x.toNat + 1))).apply .next) := by
  have hb : s.i.toNat + (x.toNat + 1) ≤ memSize := by rw [memSize]; omega
  show execLoadRegs x s = _
  rw [execLoadRegs, State.loadAtI_eq_some.2 ⟨.inr hb, rfl⟩]; rfl

/-- After loading V0 to VX from `a` upward, V[r] is the byte at `a + r`, and the registers above X are as before. -/
theorem readV_writeBlockV_readBytes (s : State) (a : Nat) (x r : Reg) :
    (s.writeBlockV (s.mem.readBytes a (x.toNat + 1))).readV r =
      if r.toNat ≤ x.toNat then s.readMem (a + r.toNat) else s.readV r := by
  have hx := x.isLt
  rw [State.readV_writeBlockV _ _ (by rw [Memory.readBytes_length]; omega), Memory.readBytes_length]
  simp only [Nat.lt_succ_iff]
  refine ite_congr rfl (fun hr => ?_) fun _ => rfl
  rw [Memory.readBytes_getD _ _ _ _ (Nat.lt_succ_of_le hr), State.readMem]

/-- Loading V0 to VX from `a` upward, with `next`, writes those registers and pc. -/
theorem keeps_writeBlockV_readBytes (s : State) (a : Nat) (x : Reg) :
    KeepsAllBut (fun p => p = .pc ∨ ∃ r : Reg, r.toNat ≤ x.toNat ∧ p = .v r) s
      ((s.writeBlockV (s.mem.readBytes a (x.toNat + 1))).apply .next) := by
  intro p hp
  cases p with
  | v r =>
    have hr : ¬ r.toNat ≤ x.toNat := fun h => hp (.inr ⟨r, h, rfl⟩)
    rw [Part.Same, State.readV_apply, readV_writeBlockV_readBytes, if_neg hr]
  | pc => simp at hp
  | _ => simp [Part.Same, State.keyHeld]

end Sys2Proof.Machine
end

section
/-! SETTLED. The statements about the index register, BCD and the memory blocks (spec/43_index_memory.md). -/

namespace Sys2Proof.Machine

/-- Settles O41: the bytes stored are the entries of `bcdDigits`, and beyond memory the table of R170 names DATA_RANGE. -/
theorem storeBcdWritesTheThreeDigits : Obligations.StoreBcdWritesTheThreeDigits := by
  refine fun x s => ⟨fun hr => ?inRange, fun hr => exec_of_faultOf_spec (if_pos hr)⟩
  case inRange =>
    obtain ⟨hundreds, tens, ones⟩ := bcdDigits_toNat (s.readV x)
    have byte (j : Nat) (hj : j < 3) := congrArg BitVec.toNat (readMem_storeAtI s (bcdDigits (s.readV x)) hj)
    exact ⟨_, exec_storeBcd_of_le hr, (byte 0 (by decide)).trans hundreds, (byte 1 (by decide)).trans tens,
      (byte 2 (by decide)).trans ones, rfl, keeps_storeAtI s (bcdDigits (s.readV x))⟩

/-- Settles O42: the bytes stored are the entries of the block V0 to VX, and beyond memory the table of R170 names DATA_RANGE. -/
theorem storeRegsWritesTheBlock : Obligations.StoreRegsWritesTheBlock := by
  refine fun x s => ⟨fun hr => ⟨_, exec_storeRegs_of_le hr, fun r h => ?byte, rfl, ?frame⟩, fun hr => exec_of_faultOf_spec (if_pos hr)⟩
  case byte => exact (readMem_storeAtI s _ (by rw [State.blockV_length]; omega)).trans (s.blockV_getD x r h)
  case frame => simpa only [State.blockV_length] using keeps_storeAtI s (s.blockV x)

/-- Settles O43: the registers written are those up to X, VF among them when X is 15, and beyond memory the table of R170 names
DATA_RANGE. -/
theorem loadRegsReadsTheBlock : Obligations.LoadRegsReadsTheBlock := by
  refine fun x s => ⟨fun hr => ⟨_, exec_loadRegs_of_le hr, fun r h => ?byte, ?pc, keeps_writeBlockV_readBytes s _ x⟩,
    fun hr => exec_of_faultOf_spec (if_pos hr)⟩
  case byte => rw [State.readV_apply, readV_writeBlockV_readBytes, if_pos h]
  case pc => rw [State.apply_next_pc, State.writeBlockV_pc]

/-- Settles O44: what the load reads (O43) is what the store wrote at the same addresses (O42, O41). -/
theorem storedBlocksLoadBack : Obligations.StoredBlocksLoadBack := by
  intro x s t u hi hm
  have load (q : Reg) (hq : s.i.toNat + q.toNat ≤ 0x0FFF) :
      ∃ w, exec (.loadRegs q) u = .next w ∧ ∀ r : Reg, r.toNat ≤ q.toNat → w.readV r = t.readMem (s.i.toNat + r.toNat) := by
    obtain ⟨w, hw, hread, -⟩ := (loadRegsReadsTheBlock q u).1 (hi ▸ hq)
    exact ⟨w, hw, fun r h => by rw [hread r h, hi, hm]⟩
  refine ⟨fun hr e => ?regs, fun hr e => ?bcd⟩
  case regs =>
    obtain ⟨t', ht', hbyte, -⟩ := (storeRegsWritesTheBlock x s).1 hr
    obtain rfl : t' = t := by simpa [ht'] using e
    obtain ⟨w, hw, hread⟩ := load x hr
    exact ⟨w, hw, fun r h => (hread r h).trans (hbyte r h)⟩
  case bcd =>
    obtain ⟨t', ht', hundreds, tens, ones, -⟩ := (storeBcdWritesTheThreeDigits x s).1 hr
    obtain rfl : t' = t := by simpa [ht'] using e
    obtain ⟨w, hw, hread⟩ := load 2 hr
    exact ⟨w, hw, by rwa [hread 0 (by decide)], by rwa [hread 1 (by decide)], by rwa [hread 2 (by decide)]⟩

/-- Settles O40: each writes its one value to I, the add-index with the sum modulo 65536. -/
theorem indexRegisterWriters : Obligations.IndexRegisterWriters := by
  refine ⟨fun nnn s => ⟨_, rfl, zextAddr_toNat nnn, rfl, keeps_writeI s _⟩, fun x s => ⟨_, rfl, ?sum, rfl, keeps_writeI s _⟩,
    fun x s => ⟨_, rfl, fontAddress_toNat _, rfl, keeps_writeI s _⟩⟩
  case sum => rw [State.apply_i, BitVec.toNat_add, zextByte_toNat]

end Sys2Proof.Machine
end

section
/-! SUPPORT. What the timer writers, the key skips and wait-key leave behind, and a cycle at a wait-key with no key held
(spec/44_timers_input.md rules R155 to R161). -/

namespace Sys2Proof.Machine

open Sys2Proof.Safety

/-! ### The timers (R156, R157) -/

/-- Writing DT, with `next`, writes DT and pc. -/
theorem keeps_writeDt (s : State) (b : Byte) : KeepsAllButList [.pc, .dt] s (State.apply { s with dt := b } .next) := by
  intro p hp
  cases p with
  | pc | dt => simp at hp
  | _ => rfl

/-- Writing ST, with `next`, writes ST and pc. -/
theorem keeps_writeSt (s : State) (b : Byte) : KeepsAllButList [.pc, .st] s (State.apply { s with st := b } .next) := by
  intro p hp
  cases p with
  | pc | st => simp at hp
  | _ => rfl

/-- `sound_active` is whether ST is not 0 (R44, R185). -/
theorem State.soundActive_iff {s : State} : s.soundActive = true ↔ s.st ≠ 0 := bne_iff_ne

/-! ### The key skips (R158, R159) -/

theorem exec_skipKeyPressed_of_le {x : Reg} {s : State} (h : (s.readV x).toNat ≤ 15) :
    exec (.skipKeyPressed x) s = skipIf (s.keyHeld (s.readV x).toNat) s := if_neg h.not_gt

theorem exec_skipKeyNotPressed_of_le {x : Reg} {s : State} (h : (s.readV x).toNat ≤ 15) :
    exec (.skipKeyNotPressed x) s = skipIf (!s.keyHeld (s.readV x).toNat) s := if_neg h.not_gt

/-! ### wait-key (R160) -/

/-- A wait-key with no key held is `repeat` alone. -/
theorem exec_waitKey_of_none (x : Reg) {s : State} (h : firstKey s.key = none) : exec (.waitKey x) s = .next s := by
  show execWaitKey x s = _
  rw [execWaitKey, waitKeyState, h, State.apply_again]

/-- A wait-key takes the key the scan answers. -/
theorem exec_waitKey_of_some (x : Reg) {s : State} {k : Nat} (h : firstKey s.key = some k) :
    exec (.waitKey x) s = .next (((s.clearKey k).writeV x (BitVec.ofNat 8 k)).apply .next) := by
  show execWaitKey x s = _
  rw [execWaitKey, waitKeyState, h]

/-- Clearing a key writes that key alone. -/
theorem keeps_clearKey (s : State) (k : Fin 16) : KeepsAllButList [.key k] s (s.clearKey k.val) := by
  intro p hp
  cases p with
  | key j =>
    have hj : j.val ≠ k.val := fun e => hp (by simp [Fin.ext e])
    simp [Part.Same, State.keyHeld_clearKey s k.val j.val j.isLt, hj]
  | _ => rfl

/-- Taking a key into Vx, with `next`, writes that key, Vx and pc. -/
theorem keeps_takeKey (s : State) (x : Reg) (k : Fin 16) (b : Byte) :
    KeepsAllButList [.pc, .v x, .key k] s (((s.clearKey k.val).writeV x b).apply .next) :=
  keepsAllBut_trans (keepsAllBut_mono (keeps_clearKey s k) fun _ => List.mem_append_right [Part.pc, .v x])
    (keepsAllBut_mono (keeps_writeV (s.clearKey k.val) x b) fun _ => List.mem_append_left [Part.key k])

/-! ### Waiting (R161) -/

/-- A cycle at a wait-key, with no key held by the host, does its first two steps and nothing else. -/
theorem cycle_waitKey_of_no_key (b : Byte) {x : Reg} {s : State} (hs : s.fault = none) (hn : nextInstr s = some (.waitKey x)) :
    cycle 0#16 b s = .next (s.begin 0#16) := by
  have hnone : firstKey (s.begin 0#16).key = none := firstKey_eq_none.2 fun k _ => BitVec.getLsbD_zero
  rw [cycle_of_some _ _ hs hn, execWith_of_ne_random _ _ (by simp), exec_waitKey_of_none x hnone]

/-- However many such cycles run, the core stays at the wait-key. -/
theorem runCycles_waitKey_of_no_key {x : Reg} (rnds : List Byte) {s : State} (hs : s.fault = none)
    (hn : nextInstr s = some (.waitKey x)) :
    ∃ t, runCycles (rnds.map fun r => (0#16, r)) s = .next t ∧ nextInstr t = some (.waitKey x) ∧
      KeepsAllBut (fun p => p ∈ [.dt, .st, .inputs] ∨ ∃ k, p = .key k) s t := by
  induction rnds generalizing s with
  | nil => exact ⟨s, rfl, hn, fun p _ => by cases p <;> rfl⟩
  | cons r rnds ih =>
    obtain ⟨t, ht, hnt, hkeep⟩ := ih (s := s.begin 0#16) hs hn
    refine ⟨t, ?_, hnt, keepsAllBut_trans (keeps_begin s 0#16) hkeep⟩
    rw [List.map_cons, runCycles, cycle_waitKey_of_no_key r hs hn]
    exact ht

end Sys2Proof.Machine
end

section
/-! SETTLED. The statements about the timers and the keypad (spec/44_timers_input.md). -/

namespace Sys2Proof.Machine

open Sys2Proof.Safety

/-- Settles O48: up to 15 the skips are `skipIf` on the key's level, and above it the table of R170 names KEY_RANGE for both. -/
theorem keySkipsTestTheKeyVxNames : Obligations.KeySkipsTestTheKeyVxNames := by
  refine fun x s => ⟨fun hr => ⟨?pressed, ?notPressed⟩, fun hr => ?range⟩
  case pressed =>
    rw [exec_skipKeyPressed_of_le hr]
    exact skipIf_cases (s.keyHeld (s.readV x).toNat) s
  case notPressed =>
    rw [exec_skipKeyNotPressed_of_le hr]
    simpa only [Bool.not_eq_true', Bool.not_eq_false'] using skipIf_cases (!s.keyHeld (s.readV x).toNat) s
  case range =>
    have hp : faultOf (.skipKeyPressed x) s = some ⟨.keyRange, (s.readV x).setWidth 16⟩ := if_pos hr
    have hnp : faultOf (.skipKeyNotPressed x) s = some ⟨.keyRange, (s.readV x).setWidth 16⟩ := if_pos hr
    exact ⟨_, exec_of_faultOf hp, exec_of_faultOf hnp, rfl, keeps_fault s _⟩

/-- Settles O49: the scan answers nothing when no key is held, and otherwise the least held key, which is cleared and taken. -/
theorem waitKeyTakesTheLeastHeldKey : Obligations.WaitKeyTakesTheLeastHeldKey := by
  refine fun x s => ⟨fun hno => ?noKey, fun k hk hleast => ?held⟩
  case noKey => exact exec_waitKey_of_none x (firstKey_eq_none.2 fun k hk => hno ⟨k, hk⟩)
  case held =>
    have hfirst : firstKey s.key = some k.val :=
      firstKey_eq_some.2 ⟨k.isLt, hk, fun j hj => hleast ⟨j, hj.trans k.isLt⟩ hj⟩
    refine ⟨_, exec_waitKey_of_some x hfirst, ?number, ?cleared, rfl, keeps_takeKey s x k _⟩
    case number =>
      rw [State.readV_apply, State.readV_writeV_self, BitVec.toNat_ofNat]
      omega
    case cleared => simp [State.keyHeld_clearKey]

/-- Settles O50: waiting keeps pc and the fetched instruction, and the first cycle with a key is that of O49. -/
theorem waitKeyWaitsForAKey : Obligations.WaitKeyWaitsForAKey := by
  intro x s rnds hs hn
  obtain ⟨t, ht, hnt, hkeep⟩ := runCycles_waitKey_of_no_key rnds hs hn
  refine ⟨t, ht, hnt, hkeep, fun keysIn rndIn k hk hleast => ?_⟩
  have hfault : t.fault = s.fault := hkeep .fault (by simp)
  have hpc : t.pc = s.pc := hkeep .pc (by simp)
  obtain ⟨u, hu, hnumber, -, hupc, -⟩ := (waitKeyTakesTheLeastHeldKey x (t.begin keysIn)).2 k hk fun j hj => hleast j.val hj
  refine ⟨u, ?_, ?_, hnumber⟩
  · rw [cycle_of_some keysIn rndIn (hfault.trans hs) hnt, execWith_of_ne_random _ _ (by simp), hu]
  · rw [hupc, State.begin_pc, hpc]

/-- Settles O46: get-delay writes its register with DT, and the other two write their timer with Vx. -/
theorem timerInstructionsMoveTheTimers : Obligations.TimerInstructionsMoveTheTimers := fun x s =>
  ⟨finish_writeV_spec s x s.dt, ⟨_, rfl, rfl, rfl, keeps_writeDt s _⟩,
    ⟨_, rfl, rfl, rfl, keeps_writeSt s _, State.soundActive_iff⟩⟩

end Sys2Proof.Machine
end

section
/-! SUPPORT. What a faulting cycle, a frozen core and a run of cycles do, and who writes the timers (spec/10_state.md rule R41,
spec/60_exceptions.md rules R171, R176, R178 and R183). -/

namespace Sys2Proof.Machine

open Sys2Proof.Safety

/-! ### Faulting cycles (R171, R176) -/

theorem State.fetch_eq_none {s : State} : s.fetch = none ↔ 0x0FFE < s.pc.toNat := by
  rw [← nextInstr_eq_none, nextInstr, Option.map_eq_none_iff]

/-- Whether the fetch or the instruction raises it, a cycle latches the fault of the table on the state its first two steps left. -/
theorem cycle_of_faultNow {s : State} {f : FaultRecord} (k : BitVec 16) (b : Byte) (hs : s.fault = none) (hf : faultNow s = some f) :
    cycle k b s = .next { s.begin k with fault := some f } := by
  cases hn : nextInstr s with
  | none =>
    rw [faultNow_of_none hn] at hf
    cases hf
    exact cycle_of_none k b hs hn
  | some i =>
    rw [faultNow_of_some hn, ← faultOf_begin i s k] at hf
    rw [cycle_of_some k b hs hn, execWith_of_faultOf b hf]

/-- Where the table names no fault, the cycle fetches an instruction and completes it. -/
theorem cycle_completes {s : State} (k : BitVec 16) (b : Byte) (hs : s.fault = none) (hf : faultNow s = none) :
    ∃ i t, nextInstr s = some i ∧ cycle k b s = .next t ∧ Completes (s.begin k) i t := by
  cases hn : nextInstr s with
  | none => simp [faultNow_of_none hn] at hf
  | some i =>
    rw [faultNow_of_some hn, ← faultOf_begin i s k] at hf
    obtain ⟨t, ht, c⟩ := execWith_completes b hf
    exact ⟨i, t, rfl, (cycle_of_some k b hs hn).trans ht, c⟩

/-- Latching a fault after steps 1 and 2 of the cycle adds the latch to what they write. -/
theorem keeps_begin_fault (s : State) (k : BitVec 16) (f : FaultRecord) :
    KeepsAllBut (fun p => p ∈ [.fault, .dt, .st, .inputs] ∨ ∃ j, p = .key j) s { s.begin k with fault := some f } :=
  keepsAllBut_trans (keepsAllBut_mono (keeps_begin s k) fun _ hp => hp.imp_left (List.mem_cons_of_mem _))
    (keepsAllBut_mono (keeps_fault (s.begin k) f) fun _ hp => .inl (List.mem_singleton.1 hp ▸ List.mem_cons_self))

/-! ### Runs of cycles -/

/-- A run that answers a state begins with a cycle that does. -/
theorem runCycles_cons_eq_next {k : BitVec 16} {b : Byte} {ins : List (BitVec 16 × Byte)} {s u : State}
    (e : runCycles ((k, b) :: ins) s = .next u) : ∃ t, cycle k b s = .next t ∧ runCycles ins t = .next u := by
  rw [runCycles] at e
  split at e
  next t ht => exact ⟨t, ht, e⟩
  all_goals cases e

/-- No run of cycles moves a frozen core (R178). -/
theorem runCycles_of_fault {s : State} {f : FaultRecord} (h : s.fault = some f) (ins : List (BitVec 16 × Byte)) :
    runCycles ins s = .next s := by
  induction ins with
  | nil => rfl
  | cons kb ins ih => rw [runCycles, cycle_of_fault _ _ h]; exact ih

/-- A quantity that falls by one in every cycle of a run, floored at 0, falls by the run's length; `P` is what a run asks of its cycles. -/
theorem runCycles_countDown (timer : State → Nat) (P : List (BitVec 16 × Byte) → State → Prop)
    (falls : ∀ {k b ins s t}, P ((k, b) :: ins) s → cycle k b s = .next t → timer t = timer s - 1 ∧ P ins t)
    {ins : List (BitVec 16 × Byte)} {s u : State} (e : runCycles ins s = .next u) (hP : P ins s) :
    timer u = timer s - ins.length := by
  induction ins generalizing s with
  | nil => cases e; rfl
  | cons kb ins ih =>
    obtain ⟨t, ht, hu⟩ := runCycles_cons_eq_next e
    obtain ⟨hfall, hrest⟩ := falls hP ht
    rw [ih hu hrest, hfall, List.length_cons]
    omega

/-! ### Who writes the timers (R183) -/

/-- Only set-delay writes DT. -/
theorem Completes.dt_eq_or {i : Instr} {s t : State} (c : Completes s i t) : t.dt = s.dt ∨ ∃ x, i = .setDelay x := by
  cases c with
  | setsDelay x => exact .inr ⟨x, rfl⟩
  | _ => simp

/-- Only set-sound writes ST. -/
theorem Completes.st_eq_or {i : Instr} {s t : State} (c : Completes s i t) : t.st = s.st ∨ ∃ x, i = .setSound x := by
  cases c with
  | setsSound x => exact .inr ⟨x, rfl⟩
  | _ => simp

end Sys2Proof.Machine
end

section
/-! SETTLED. The statements about faults and the timers in every cycle (spec/60_exceptions.md). -/

namespace Sys2Proof.Machine

open Sys2Proof.Safety

/-- Settles O12: a step is a cycle, and a cycle of a frozen core answers its state. -/
theorem aFaultedCoreIsFrozen : Obligations.AFaultedCoreIsFrozen := fun _ _ h => ⟨cycle_of_fault _ _ h, runCycles_of_fault h⟩

/-- Settles O15: the second step counts both timers down, and of the instructions set-delay alone writes DT and set-sound alone ST. -/
theorem timersCountDownInEveryCycle : Obligations.TimersCountDownInEveryCycle := by
  intro keysIn rndIn s t hs e
  obtain ⟨⟨f, hf⟩, -⟩ | ⟨-, f, -, rfl⟩ | ⟨-, i, hi, c⟩ := cycle_inv e
  · simp [hs] at hf
  · exact ⟨fun _ => countDown_toNat s.dt, fun _ => countDown_toNat s.st⟩
  · refine ⟨fun hw => ?delay, fun hw => ?sound⟩
    case delay =>
      have hdt : t.dt = countDown s.dt := c.dt_eq_or.resolve_right fun ⟨x, hx⟩ => hw x (hx ▸ hi)
      rw [hdt, countDown_toNat]
    case sound =>
      have hst : t.st = countDown s.st := c.st_eq_or.resolve_right fun ⟨x, hx⟩ => hw x (hx ▸ hi)
      rw [hst, countDown_toNat]

/-- Settles O20: the table decides whether an instruction faults or completes, and one that completes leaves the latch alone. -/
theorem faultsAreExactlyTheTablesAndPrecise : Obligations.FaultsAreExactlyTheTablesAndPrecise := by
  refine ⟨fun i s => ⟨fun f hf => exec_of_faultOf hf, fun hf => ?completes⟩, fun keysIn rndIn s hs => ?cycle, rfl, rfl, rfl, rfl, rfl⟩
  case completes =>
    obtain ⟨t, ht, c⟩ := execWith_completes (Config.rndIn s.inputs) hf
    exact ⟨t, (execWith_rndIn i s).symm.trans ht, c.fault_eq⟩
  case cycle =>
    cases hf : faultNow s with
    | some f => exact ⟨_, cycle_of_faultNow keysIn rndIn hs hf, rfl⟩
    | none =>
      obtain ⟨i, t, -, ht, c⟩ := cycle_completes keysIn rndIn hs hf
      exact ⟨t, ht, c.fault_eq.trans hs⟩

/-- Settles O21: the fault is latched on the state of the first two steps, and freezes the core. -/
theorem aFaultingCycleKeepsOnlyItsFirstTwoSteps : Obligations.AFaultingCycleKeepsOnlyItsFirstTwoSteps :=
  fun keysIn rndIn s f hs hf =>
    ⟨_, cycle_of_faultNow keysIn rndIn hs hf, rfl, rfl, countDown_toNat s.dt, countDown_toNat s.st, keeps_begin_fault s keysIn f,
      runCycles_of_fault rfl⟩

/-- Settles O47, by O15 in every cycle of the run. -/
theorem timersRunDownToZero : Obligations.TimersRunDownToZero := by
  refine fun ins s t e => ⟨runCycles_countDown (·.dt.toNat) NoSetDelay ?delay e, runCycles_countDown (·.st.toNat) NoSetSound ?sound e⟩
  case delay =>
    intro k b ins s t ⟨hs, hn, hrest⟩ ht
    exact ⟨(timersCountDownInEveryCycle k b s t hs ht).1 hn, hrest t ht⟩
  case sound =>
    intro k b ins s t ⟨hs, hn, hrest⟩ ht
    exact ⟨(timersCountDownInEveryCycle k b s t hs ht).2 hn, hrest t ht⟩

/-- Settles O13: beyond 0x0FFE the fetch is the fault of the cycle. -/
theorem fetchBeyondMemoryFaults : Obligations.FetchBeyondMemoryFaults := by
  refine ⟨fun s => State.fetch_eq_none, fun keysIn rndIn s hs hp => ?_⟩
  exact ⟨_, cycle_of_none keysIn rndIn hs (nextInstr_eq_none.2 hp), rfl, rfl, rfl, countDown_toNat s.dt, countDown_toNat s.st,
    keeps_begin_fault s keysIn _⟩

end Sys2Proof.Machine
end

section
/-! SETTLED. The statement that nothing halts or refuses the machine (spec/70_reset_and_hazards.md rule R206). -/

namespace Sys2Proof.Machine

open Sys2Proof.Safety

/-- A cycle is frozen, latches a fault or completes its instruction, and each is a next state (R41, R176, R178). -/
theorem cycle_eq_next (k : BitVec 16) (b : Byte) (s : State) : ∃ t, cycle k b s = .next t := by
  cases hs : s.fault with
  | some f => exact ⟨s, cycle_of_fault k b hs⟩
  | none =>
    cases hf : faultNow s with
    | some f => exact ⟨_, cycle_of_faultNow k b hs hf⟩
    | none =>
      obtain ⟨_, t, -, ht, -⟩ := cycle_completes k b hs hf
      exact ⟨t, ht⟩

/-- Settles O14: a step is a cycle with the free inputs of its index. -/
theorem everyCycleAnswersANextState : Obligations.EveryCycleAnswersANextState :=
  ⟨cycle_eq_next, fun s => cycle_eq_next _ _ s⟩

end Sys2Proof.Machine
end
